-- ==== Sys2Proof/Word.lean ====
section
/-! DEFINITION. The words of the engine: the byte, the fixed table, truncation of an integer to a byte
(00_scope.md rule R9). -/

namespace Sys2Proof

/-- A byte, "an integer 0 to 255" (R9). -/
abbrev Byte := BitVec 8

/-- A fixed table of `n` bytes: `SALT`, `SKEY`, `KTAB`, `PKEY`, a digest. -/
abbrev Table (n : Nat) := Vector Byte n

/-- `trunc8` of R9: the low 8 bits of the two's-complement form of an integer. -/
def trunc8 (v : Int) : Byte := BitVec.ofInt 8 v

/-- The table whose entry `i` is `f i`. -/
def tabulate (n : Nat) (f : Nat → Byte) : Table n :=
  ⟨⟨(List.range n).map f⟩, by simp⟩

/-- Reading one entry of a tabulated table. -/
@[simp] theorem tabulate_getElem (n : Nat) (f : Nat → Byte) (i : Nat) (h : i < n) :
    (tabulate n f)[i] = f i := by
  simp [tabulate]

end Sys2Proof
end

