-- ==== Sys2Proof/Syntax.lean ====
section
/-! DEFINITION. The seven host operations, one constructor per row of the opcode map (30_encoding.md rule R72).
They "take the place of the instructions of an instruction set" (00_scope.md section 5.3). -/

namespace Sys2Proof

/-- A decoded command. `OFFSET`, `COUNT` and the seed are unsigned fields used as unbounded integers (R73), so
they are natural numbers, and `Instr.WellFormed` bounds them; `SEQ` is a byte and `K2` a single bit. -/
inductive Instr where
  /-- The mutator `Seed` (R80, R103). -/
  | setSeed (seed : Nat)
  /-- The mutator `StaticKeystream` (R80, R130). -/
  | setSkey (offset count : Nat)
  /-- The table-generation entry point (R80, R127). -/
  | genKtab (offset count : Nat)
  /-- `EncryptClientData` (R80, R165). -/
  | encClient (offset count : Nat) (seq : Byte) (k2 : Bool)
  /-- `DecryptClientData` (R80, R170). -/
  | decClient (offset count : Nat) (k2 : Bool)
  /-- `EncryptServerData` (R80, R175). -/
  | encServer (offset count : Nat) (seq : Byte) (k2 : Bool)
  /-- `DecryptServerData` (R80, R179). -/
  | decServer (offset count : Nat) (k2 : Bool)
  deriving DecidableEq, Repr

end Sys2Proof
end

