-- ==== Sys2Proof/WellFormed.lean ====
section
/-! DEFINITION. The operand ranges the command word can hold (30_encoding.md rules R70 and R73). -/

namespace Sys2Proof

/-- `OFFSET` and `COUNT` fit their 16-bit fields (R70). -/
abbrev regionFits (offset count : Nat) : Prop := offset < 65536 ∧ count < 65536

/-- The operands fit the fields of the command word (R70). A seed of 10 to 255 is well formed: it is "refused by
`SET_SEED` ..., not by the decoder" (R73). -/
abbrev Instr.WellFormed : Instr → Prop
  | .setSeed seed => seed < 256
  | .setSkey offset count => regionFits offset count
  | .genKtab offset count => regionFits offset count
  | .encClient offset count _ _ => regionFits offset count
  | .decClient offset count _ => regionFits offset count
  | .encServer offset count _ _ => regionFits offset count
  | .decServer offset count _ => regionFits offset count

end Sys2Proof
end

