-- ==== Sys2Proof/Decode.lean ====
section
/-! DEFINITION. The command word: the opcode map, the decoder, the encoder, the order of the word's bytes and the
assembler form (30_encoding.md rules R70 to R76). -/

namespace Sys2Proof

/-- Why a word selects no operation (R74). Every reason is reported alike, as `ILLEGAL_COMMAND` (R195). -/
inductive DecodeError where
  /-- `OPC` is none of the seven operation codes. -/
  | unknownOpcode
  /-- Bits 15:9 are not 0. -/
  | rsv0NotZero
  /-- Bits 31:24 are not 0. -/
  | rsv1NotZero
  /-- An operand field that the operation does not use is not 0. -/
  | unusedFieldNotZero
  /-- The bytes are not the eight bytes of one word (R70, R71: there is one length). -/
  | notOneWord
  deriving DecidableEq, Repr

/-- The rows of the opcode map (R72). -/
inductive Opcode where
  | setSeed | setSkey | genKtab | encClient | decClient | encServer | decServer
  deriving DecidableEq, Repr

/-- All rows of the opcode map, in the table's order (R72). -/
def Opcode.all : List Opcode :=
  [.setSeed, .setSkey, .genKtab, .encClient, .decClient, .encServer, .decServer]

/-- The column `OPC` of the opcode map (R72). -/
def Opcode.code : Opcode → Byte
  | .setSeed => 0x01
  | .setSkey => 0x02
  | .genKtab => 0x03
  | .encClient => 0x10
  | .decClient => 0x11
  | .encServer => 0x12
  | .decServer => 0x13

/-- The column `match` of the opcode map (R72). -/
def Opcode.pattern : Opcode → BitVec 64
  | .setSeed => 0x0000000000000001
  | .setSkey => 0x0000000000000002
  | .genKtab => 0x0000000000000003
  | .encClient => 0x0000000000000010
  | .decClient => 0x0000000000000011
  | .encServer => 0x0000000000000012
  | .decServer => 0x0000000000000013

/-- The column `mask` of the opcode map (R72). -/
def Opcode.mask : Opcode → BitVec 64
  | .setSeed => 0xFFFFFFFFFF00FFFF
  | .setSkey => 0x00000000FFFFFFFF
  | .genKtab => 0x00000000FFFFFFFF
  | .encClient => 0x00000000FF00FEFF
  | .decClient => 0x00000000FFFFFEFF
  | .encServer => 0x00000000FF00FEFF
  | .decServer => 0x00000000FFFFFEFF

/-- "A word `w` selects the row when `(w & mask) = match`" (R72). -/
def Opcode.selects (o : Opcode) (w : BitVec 64) : Bool := (w &&& o.mask) == o.pattern

/-- The field `OPC` (R70). -/
def fieldOpc (w : BitVec 64) : Byte := w.extractLsb' 0 8
/-- The field `K2` (R70). -/
def fieldK2 (w : BitVec 64) : Bool := w.getLsbD 8
/-- The field `RSV0` (R70). -/
def fieldRsv0 (w : BitVec 64) : BitVec 7 := w.extractLsb' 9 7
/-- The field `ARG` (R70). -/
def fieldArg (w : BitVec 64) : Byte := w.extractLsb' 16 8
/-- The field `RSV1` (R70). -/
def fieldRsv1 (w : BitVec 64) : Byte := w.extractLsb' 24 8
/-- The field `OFFSET`, zero-extended (R73). -/
def fieldOffset (w : BitVec 64) : Nat := (w.extractLsb' 32 16).toNat
/-- The field `COUNT`, zero-extended (R73). -/
def fieldCount (w : BitVec 64) : Nat := (w.extractLsb' 48 16).toNat

/-- Operand assembly for a selected row (R73). -/
def Opcode.operands (o : Opcode) (w : BitVec 64) : Instr :=
  match o with
  | .setSeed => .setSeed (fieldArg w).toNat
  | .setSkey => .setSkey (fieldOffset w) (fieldCount w)
  | .genKtab => .genKtab (fieldOffset w) (fieldCount w)
  | .encClient => .encClient (fieldOffset w) (fieldCount w) (fieldArg w) (fieldK2 w)
  | .decClient => .decClient (fieldOffset w) (fieldCount w) (fieldK2 w)
  | .encServer => .encServer (fieldOffset w) (fieldCount w) (fieldArg w) (fieldK2 w)
  | .decServer => .decServer (fieldOffset w) (fieldCount w) (fieldK2 w)

/-- The row a word selects, if any (R72, R75). -/
def selectRow (w : BitVec 64) : Option Opcode := Opcode.all.find? (fun o => o.selects w)

/-- The name of the reason why a word that selects no row is illegal (R74). -/
def rejectReason (w : BitVec 64) : DecodeError :=
  if Opcode.all.all (fun o => fieldOpc w != o.code) then .unknownOpcode
  else if fieldRsv0 w ≠ 0 then .rsv0NotZero
  else if fieldRsv1 w ≠ 0 then .rsv1NotZero
  else .unusedFieldNotZero

/-- The decoder, total on 64-bit words (R75). -/
def decode (w : BitVec 64) : Except DecodeError Instr :=
  match selectRow w with
  | some o => .ok (o.operands w)
  | none => .error (rejectReason w)

/-- The format `C64` (R70): `OPC | (K2 << 8) | (ARG << 16) | (OFFSET << 32) | (COUNT << 48)`. -/
def encodeFields (opc : Byte) (k2 : Bool) (arg : Byte) (offset count : Nat) : BitVec 64 :=
  opc.zeroExtend 64 ||| ((BitVec.ofBool k2).zeroExtend 64 <<< 8) ||| (arg.zeroExtend 64 <<< 16)
    ||| (BitVec.ofNat 64 offset <<< 32) ||| (BitVec.ofNat 64 count <<< 48)

/-- The word of a well-formed instruction (the second column of R76). -/
def encode : Instr → BitVec 64
  | .setSeed seed => encodeFields 0x01 false (BitVec.ofNat 8 seed) 0 0
  | .setSkey offset count => encodeFields 0x02 false 0 offset count
  | .genKtab offset count => encodeFields 0x03 false 0 offset count
  | .encClient offset count seq k2 => encodeFields 0x10 k2 seq offset count
  | .decClient offset count k2 => encodeFields 0x11 k2 0 offset count
  | .encServer offset count seq k2 => encodeFields 0x12 k2 seq offset count
  | .decServer offset count k2 => encodeFields 0x13 k2 0 offset count

/-- The row of the opcode map that an instruction belongs to (R72). -/
def Instr.opcode : Instr → Opcode
  | .setSeed _ => .setSeed
  | .setSkey _ _ => .setSkey
  | .genKtab _ _ => .genKtab
  | .encClient _ _ _ _ => .encClient
  | .decClient _ _ _ => .decClient
  | .encServer _ _ _ _ => .encServer
  | .decServer _ _ _ => .decServer

/-- Byte `j` of a 64-bit value, the least significant first (20_memory.md rule R54.4). -/
def byteOfWord (w : BitVec 64) (j : Nat) : Byte := w.extractLsb' (8 * j) 8

/-- The eight bytes of a 64-bit value, "the least significant byte ... at the lowest address" (R54.4). -/
def bytesOfWord (w : BitVec 64) : List Byte := (List.range 8).map (byteOfWord w)

/-- The value of little-endian bytes (R54.4). -/
def wordOfBytes : List Byte → BitVec 64
  | [] => 0
  | b :: bs => (wordOfBytes bs <<< 8) ||| b.zeroExtend 64

/-- The decoder on bytes: a command is exactly the eight bytes of one word (R70, R71). -/
def decodeBytes (bs : List Byte) : Except DecodeError Instr :=
  if bs.length = 8 then decode (wordOfBytes bs) else .error .notOneWord

/-- The instruction the decoder reads from the low `nbits` bits of `w`, the bits above them 0, laid out as the
hardware stores the word. -/
def decodeTableWord (nbits w : Nat) : Option Instr :=
  match decodeBytes (bytesOfWord (BitVec.ofNat 64 (w % (1 <<< nbits)))) with
  | .ok i => some i
  | .error _ => none

/-- A number of the assembler form as the bit `K2` (R76). -/
def asmBit : Nat → Option Bool
  | 0 => some false
  | 1 => some true
  | _ => none

/-- A number of the assembler form as the byte `SEQ` (R76). -/
def asmByte (n : Nat) : Option Byte := if n < 256 then some (BitVec.ofNat 8 n) else none

/-- An instruction of the assembler form, when its numbers fit their fields (R76). -/
def asmChecked (i : Instr) (fits : Bool) : Option Instr := if fits then some i else none

/-- The assembler form: a mnemonic and its operands in the fixed order of R76. -/
def assemble (mnemonic : String) (operands : List Nat) : Option Instr :=
  match mnemonic, operands with
  | "SET_SEED", [seed] => asmChecked (.setSeed seed) (decide (seed < 256))
  | "SET_SKEY", [o, c] => asmChecked (.setSkey o c) (decide (regionFits o c))
  | "GEN_KTAB", [o, c] => asmChecked (.genKtab o c) (decide (regionFits o c))
  | "ENC_CLIENT", [o, c, seq, k2] =>
    (asmByte seq).bind fun sq => (asmBit k2).bind fun k =>
      asmChecked (.encClient o c sq k) (decide (regionFits o c))
  | "DEC_CLIENT", [o, c, k2] =>
    (asmBit k2).bind fun k => asmChecked (.decClient o c k) (decide (regionFits o c))
  | "ENC_SERVER", [o, c, seq, k2] =>
    (asmByte seq).bind fun sq => (asmBit k2).bind fun k =>
      asmChecked (.encServer o c sq k) (decide (regionFits o c))
  | "DEC_SERVER", [o, c, k2] =>
    (asmBit k2).bind fun k => asmChecked (.decServer o c k) (decide (regionFits o c))
  | _, _ => none

/-- The mnemonic of an instruction (R72). -/
def Instr.mnemonic : Instr → String
  | .setSeed _ => "SET_SEED"
  | .setSkey _ _ => "SET_SKEY"
  | .genKtab _ _ => "GEN_KTAB"
  | .encClient _ _ _ _ => "ENC_CLIENT"
  | .decClient _ _ _ => "DEC_CLIENT"
  | .encServer _ _ _ _ => "ENC_SERVER"
  | .decServer _ _ _ => "DEC_SERVER"

/-- The operands of an instruction in the fixed order of R76. -/
def Instr.asmOperands : Instr → List Nat
  | .setSeed seed => [seed]
  | .setSkey o c => [o, c]
  | .genKtab o c => [o, c]
  | .encClient o c seq k2 => [o, c, seq.toNat, k2.toNat]
  | .decClient o c k2 => [o, c, k2.toNat]
  | .encServer o c seq k2 => [o, c, seq.toNat, k2.toNat]
  | .decServer o c k2 => [o, c, k2.toNat]

/-- The assembler text of an instruction: the mnemonic, then the operands in decimal, separated by commas (R76). -/
def Instr.asmText (i : Instr) : String :=
  i.mnemonic ++ " " ++ String.intercalate ", " (i.asmOperands.map toString)

end Sys2Proof
end

