-- ==== Sys2Proof/Config.lean ====
section
/-! DEFINITION. What the spec fixes for every instance (00_scope.md rules R6 and R8), the one configuration
switch (46_packet_envelope_codec.md rule R161), the open parameters (R7) and the free values. An `opaque` constant
has no body: nothing in Lean can evaluate it or prove a value of it. -/

namespace Sys2Proof.Config

/-- `SEED_MAX` (R6). -/
@[simp] abbrev seedMax : Nat := 9
/-- `SCRATCH_CAP`, "the maximum supported packet" (R6). -/
@[simp] abbrev scratchCap : Nat := 65532
/-- `IBUF_CAP` (R8). -/
@[simp] abbrev ibufCap : Nat := 65535
/-- `LCG_MUL` (R6). -/
abbrev lcgMul : BitVec 32 := 0x343FD
/-- `LCG_INC` (R6). -/
abbrev lcgInc : BitVec 32 := 0x269EC3
/-- `PRG_RESET` (R6). -/
abbrev prgReset : BitVec 32 := 1
/-- `A_MOD` (R6). -/
@[simp] abbrev aMod : Nat := 65277
/-- `A_ADD` (R6). -/
@[simp] abbrev aAdd : Nat := 256
/-- `B_MOD` (R6). -/
@[simp] abbrev bMod : Nat := 155
/-- `B_ADD` (R6). -/
@[simp] abbrev bAdd : Nat := 100
/-- `CLIENT_XOR_A` (R6). -/
abbrev clientXorA : BitVec 16 := 0x7470
/-- `CLIENT_XOR_B` (R6). -/
abbrev clientXorB : Byte := 0x23
/-- `SERVER_XOR_A` (R6). -/
abbrev serverXorA : BitVec 16 := 0x6474
/-- `SERVER_XOR_B` (R6). -/
abbrev serverXorB : Byte := 0x24

/-- Where the tag and, on decrypt, the sequence byte are read (R161, D9). -/
inductive HdrBase where
  /-- At the start of the input buffer: the spec's rule and its default. -/
  | absolute
  /-- At the start of the region: the alternative the spec records. -/
  | region
  deriving DecidableEq, Repr

/-- The switch `HDR_BASE` at its default (R161, D9). Assumption 9. -/
def hdrBase : HdrBase := .absolute

/-- The digest `H128`, "an uninterpreted function" (R7, D13). Assumption 2. -/
opaque h128 : List Byte → Table 16

/-- `DEFAULT_STATIC_KEYSTREAM`, nine bytes the source does not give (R7, R131, D17). Assumption 3. -/
opaque defaultStaticKeystream : Table 9

/-- The unspecified content of `KTAB` after reset (R25, U1), free at every reset. Assumption 4. -/
opaque freeTable : Nat → Table 1024

/-- The unspecified content of `PKEY` between operations (R27, U2), free at every one. Assumption 5. -/
opaque freeKey : Nat → Table 9

/-- The unspecified content of `IBUF` after reset (R29, U4): which reset, which index. Assumption 6. -/
opaque freeInputByte : Nat → Nat → Byte

end Sys2Proof.Config
end

