-- ==== Sys2Proof/Machine/State.lean ====
section
/-! DEFINITION. The state of one engine instance (10_state.md), the host's moves (70_reset_and_hazards.md rule R228),
the ways a step can stop, and the state after reset (10_state.md rule R39). -/

namespace Sys2Proof.Machine

/-- A buffer: the bytes that hold a value, as (index, byte) pairs with strictly rising indices. An unlisted byte
has no value in the buffer (assumptions 6 and 7), so no listed pair can equal what an unlisted one reads as. -/
abbrev Memory := List Host.Cell

/-- The two buffers (20_memory.md rule R50). -/
inductive Space where
  | ibuf
  | scratch
  deriving DecidableEq, Repr

/-- The codes `STATUS.ERR` can hold (60_exceptions.md rule R190); codes 8 to 15 are "never produced". -/
inductive ErrCode where
  /-- 0: the operation ended without error. -/
  | none
  /-- 1: `ARG > 9`. -/
  | seedRange
  /-- 2: `COUNT != 9`. -/
  | keyLength
  /-- 3: the region does not lie inside the input buffer. -/
  | outOfRange
  /-- 4: `COUNT` is below the smallest frame or payload. -/
  | countTooSmall
  /-- 5: the result or the region would not fit the scratch buffer. -/
  | capacity
  /-- 6: `K2 = 1` with `KTAB_VALID = 0`. -/
  | ktabNotReady
  /-- 7: the command word matches no operation. -/
  | illegalCommand
  deriving DecidableEq, Repr

/-- What the host can do (R228, 30_encoding.md rule R77, 20_memory.md rule R56). -/
inductive HostMove where
  /-- Assert reset (R215). -/
  | reset
  /-- Write the 64-bit word to `CMD` (R33). -/
  | command (w : BitVec 64)
  /-- Write a value to register number `n` (R34). -/
  | writeReg (n : Nat) (v : BitVec 64)
  /-- Read register number `n` (R34). -/
  | readReg (n : Nat)
  /-- Write `IBUF[k]` (R29). -/
  | writeIbuf (k : Nat) (v : Byte)
  /-- Read `IBUF[k]` (R56: host read and write). -/
  | readIbuf (k : Nat)
  /-- Write result-window index `k`: no effect (R53). -/
  | writeResult (k : Nat) (v : Byte)
  /-- Read result-window index `k` (R53). -/
  | readResult (k : Nat)
  /-- One write of the listed bytes on the host bus, the first at the lowest address (R54, R56). -/
  | busWrite (addr : Nat) (bytes : List Byte)
  /-- Read one byte on the host bus (R56). -/
  | busRead (addr : Nat)
  /-- The directive `.ibuf` (R77). -/
  | loadIbuf (bytes : List Byte)
  /-- The directive `.ibuf_from_result` (R77). -/
  | ibufFromResult
  deriving DecidableEq, Repr

/-- The state of 10_state.md, with the host interface of 20_memory.md; the last four fields are the model's own. -/
structure State where
  /-- `SEED` (R22). -/
  seed : BitVec 4
  /-- `SALT` (R23). -/
  salt : Table 256
  /-- `SKEY` (R24). -/
  skey : Table 9
  /-- `KTAB` (R25). -/
  ktab : Table 1024
  /-- `KTAB_VALID`, also `STATUS[2]` (R26). -/
  ktabValid : Bool
  /-- `PKEY` (R27): working storage, unspecified between operations. -/
  pkey : Table 9
  /-- `PRG` (R28). -/
  prg : BitVec 32
  /-- `SCRATCH` (R30): the listed bytes are those that hold a specified value. -/
  scratch : Memory
  /-- `OLEN` (R31). -/
  olen : BitVec 16
  /-- `IBUF` (R29): the listed bytes are those the host has written since reset. -/
  ibuf : Memory
  /-- `ILEN` (R29). -/
  ilen : BitVec 16
  /-- `STATUS.BUSY` (R32). -/
  busy : Bool
  /-- `STATUS.DONE` (R32). -/
  done : Bool
  /-- `STATUS.ERR` (R32, R190). -/
  err : ErrCode
  /-- The model's own: the host's moves still to come, oldest first (assumption 1). -/
  inbox : List HostMove
  /-- The model's own: the value the last host read returned (assumption 8). -/
  hostData : BitVec 64
  /-- The model's own: the number of the next free value (assumption 5). -/
  freeCount : Nat
  /-- The model's own: which free value the unwritten bytes of `IBUF` hold (assumption 6). -/
  ibufFree : Nat
  deriving DecidableEq, Repr

/-- How the machine stops with a fault. No operation of the block raises one: every error of the block is a code
in `STATUS.ERR` and the machine goes on (R198). -/
inductive Fault where
  /-- Raised by the host moves `writeIbuf`, `readIbuf`, `writeResult`, `readResult` and `loadIbuf` when they name a
  byte that the buffer does not have (R50). Safe: no host can address such a byte (assumption 13). -/
  | outsideBuffer (space : Space) (index : Nat)
  deriving DecidableEq, Repr

/-- The situations the model gives no meaning. -/
inductive Refusal where
  /-- Raised by an arm of `exec` whose instruction has no meaning yet; no arm does. Safe. -/
  | notModelled (mnemonic : String)
  /-- Raised by a host read of a result byte that is unspecified: "a model refuses such a read" (R53). Safe. -/
  | unspecifiedResult (index : Nat)
  /-- Raised by a host write of `IBUF` or `ILEN` while `BUSY = 1`: "a model gives such a run no meaning (refusal)"
  (R221). Safe. -/
  | inputWrittenWhileBusy
  /-- Raised by a bus write that covers part of `CMD` but is not one write of its eight bytes: the spec does not
  say when a command written in pieces is accepted (R33, R54). Safe (assumption 11). -/
  | partialCommandWrite
  deriving DecidableEq, Repr

/-- The state after the reset that draws free values number `n` (R39, R215): the elements with a reset value hold
it, `KTAB` and `PKEY` hold free values, and `SCRATCH` and `IBUF` list no byte. -/
def State.afterReset (n : Nat) : State where
  seed := 0
  salt := tabulate 256 (BitVec.ofNat 8)
  skey := Config.defaultStaticKeystream
  ktab := Config.freeTable n
  ktabValid := false
  pkey := Config.freeKey n
  prg := Config.prgReset
  scratch := []
  olen := 0
  ibuf := []
  ilen := 0
  busy := false
  done := false
  err := .none
  inbox := []
  hostData := 0
  freeCount := n + 1
  ibufFree := n

/-- The machine right after reset (R39). -/
def State.reset : State := State.afterReset 0

end Sys2Proof.Machine
end

