-- ==== Sys2Proof/Machine/Ops.lean ====
section
/-! DEFINITION. The named operations over the buffers and the registers: reading and writing a buffer, accepting a
command (10_state.md rule R33), ending an operation with a result (00_scope.md rule R10), and the one error entry
(60_exceptions.md rule R198). -/

namespace Sys2Proof.Machine

/-! ### Buffers -/

/-- The value of one byte, if it holds one. -/
def Memory.read : Memory → Nat → Option Byte
  | [], _ => none
  | (i, v) :: m, k => if k = i then some v else Memory.read m k

/-- Write one byte, keeping the indices strictly rising. -/
def Memory.write : Memory → Nat → Byte → Memory
  | [], k, v => [(k, v)]
  | (i, u) :: m, k, v =>
    if k < i then (k, v) :: (i, u) :: m
    else if k = i then (k, v) :: m
    else (i, u) :: Memory.write m k v

/-- Write bytes at `base`, the first at the lowest index. -/
def Memory.writeBytes : Memory → Nat → List Byte → Memory
  | m, _, [] => m
  | m, base, b :: bs => Memory.writeBytes (Memory.write m base b) (base + 1) bs

/-- The buffer whose bytes from `base` on are the listed ones and which lists no other. -/
def Memory.ofBytes : Nat → List Byte → Memory
  | _, [] => []
  | base, b :: bs => (base, b) :: Memory.ofBytes (base + 1) bs

/-- The `n` bytes at `base`, if all of them hold a value. -/
def Memory.readBytes (m : Memory) : Nat → Nat → Option (List Byte)
  | _, 0 => some []
  | base, n + 1 => (m.read base).bind fun v => (Memory.readBytes m (base + 1) n).map (v :: ·)

/-- The canonical form: strictly rising indices, all inside a buffer of `cap` bytes. -/
abbrev Memory.wf (cap : Nat) (m : Memory) : Prop :=
  m.Pairwise (fun c d => c.1 < d.1) ∧ ∀ c ∈ m, c.1 < cap

/-! ### Updates of the registers -/

/-- `SEED` and `SALT` written together (40_salt_table_generator.md rule R103). -/
def State.setSalt (s : State) (seed : BitVec 4) (table : Table 256) : State :=
  { s with seed := seed, salt := table }

/-- `SKEY` written (42_keystream_table_init.md rule R130). -/
def State.setSkey (s : State) (key : Table 9) : State := { s with skey := key }

/-- `KTAB` written whole and `KTAB_VALID` set (42_keystream_table_init.md rule R127). -/
def State.setKtab (s : State) (table : Table 1024) : State :=
  { s with ktab := table, ktabValid := true }

/-- `PRG` written (41_lcg_prng_15bit.md rule R116). -/
def State.setPrg (s : State) (p : BitVec 32) : State := { s with prg := p }

/-- `IBUF` written by the host (10_state.md rule R29). -/
def State.setIbuf (s : State) (m : Memory) : State := { s with ibuf := m }

/-- `ILEN` written by the host (10_state.md rule R29). -/
def State.setIlen (s : State) (n : BitVec 16) : State := { s with ilen := n }

/-- A host read returned `v`. -/
def State.answer (s : State) (v : BitVec 64) : State := { s with hostData := v }

/-- The oldest host move taken from the queue. -/
def State.popped (s : State) (rest : List HostMove) : State := { s with inbox := rest }

/-! ### Accepting and ending an operation -/

/-- Acceptance of a command: `DONE` and `ERR` are cleared and the block is busy (R32, R33). It is also all that
stands for a return from an error (60_exceptions.md rule R201). -/
def State.accept (s : State) : State := { s with busy := true, done := false, err := .none }

/-- The end of an operation: `DONE` is set, `ERR` and `OLEN` are written, `SCRATCH` holds the result and no other
specified byte (R30), and `PKEY` is unspecified (R27). -/
def State.finish (s : State) (e : ErrCode) (result : List Byte) : State :=
  { s with
    busy := false
    done := true
    err := e
    olen := BitVec.ofNat 16 result.length
    scratch := Memory.ofBytes 0 result
    pkey := Config.freeKey s.freeCount
    freeCount := s.freeCount + 1 }

/-- The error entry, `raise` of R10: "`STATUS.ERR <- code`, `OLEN <- 0`, `STATUS.DONE <- 1`, `SCRATCH` becomes
unspecified, and nothing else changes" (R198). -/
def State.raise (s : State) (e : ErrCode) : State := s.finish e []

/-- `result(s)` of R10: the operation completes without error and delivers the bytes (R31). -/
def State.deliver (s : State) (result : List Byte) : State := s.finish .none result

/-- Reset from any state (R215): the state of R39 with fresh free values; the host's own queue and the value it
has read are not the block's and stay (assumption 14). -/
def State.resetNow (s : State) : State :=
  { State.afterReset s.freeCount with inbox := s.inbox, hostData := s.hostData }

end Sys2Proof.Machine
end

