-- ==== Sys2Proof/Machine/Operands.lean ====
section
/-! DEFINITION. The operands of an operation: bytes of the input buffer, the place of the tag and the sequence byte
(46_packet_envelope_codec.md rule R161), and the checks on them (60_exceptions.md rules R192 to R197). -/

namespace Sys2Proof.Machine

/-- `IBUF[k]` (10_state.md rule R29); a byte nothing has written since reset holds any value (U4). -/
def State.inputByte (s : State) (k : Nat) : Byte :=
  match s.ibuf.read k with
  | some v => v
  | none => Config.freeInputByte s.ibufFree k

/-- `MemRead(IBUF, base, n)` (00_scope.md rule R10). -/
def State.inputBytes (s : State) (base n : Nat) : List Byte :=
  (List.range n).map fun j => s.inputByte (base + j)

/-- The index that header byte `k` (0 the tag, 1 the sequence byte) is read at (R161). -/
def headerIndex (base : Config.HdrBase) (offset k : Nat) : Nat :=
  match base with
  | .absolute => k
  | .region => offset + k

/-- The tag of a data operation (R161). -/
def State.tagByte (s : State) (base : Config.HdrBase) (offset : Nat) : Byte :=
  s.inputByte (headerIndex base offset 0)

/-- The sequence byte of a decrypt operation (R161). -/
def State.seqByte (s : State) (base : Config.HdrBase) (offset : Nat) : Byte :=
  s.inputByte (headerIndex base offset 1)

/-- `CHECK_RANGE` (R192), on unbounded integers. -/
def checkRange (offset count ilen : Nat) : Option ErrCode :=
  if offset < ilen ∧ offset + count ≤ ilen then none else some .outOfRange

/-- The weaker test of `SET_SKEY` and `GEN_KTAB` (R192, 42_keystream_table_init.md rules R127 and R130). -/
def checkInside (offset count ilen : Nat) : Option ErrCode :=
  if offset + count ≤ ilen then none else some .outOfRange

/-- `CHECK_MIN` (R196). -/
def checkMin (count least : Nat) : Option ErrCode :=
  if count < least then some .countTooSmall else none

/-- `CHECK_CAP` (R193). -/
def checkCap (len : Nat) : Option ErrCode :=
  if len > Config.scratchCap then some .capacity else none

/-- `CHECK_KTAB` (R194). -/
def checkKtab (k2 valid : Bool) : Option ErrCode :=
  if k2 = true ∧ valid = false then some .ktabNotReady else none

/-- The first check of `SET_SKEY` (42_keystream_table_init.md rule R130). -/
def checkKeyLength (count : Nat) : Option ErrCode :=
  if count ≠ 9 then some .keyLength else none

/-- The checks of a data operation in their order, the first failing one reported (R197): `least` is the smallest
`COUNT` and `len` the length held against the capacity. -/
def dataCheck (s : State) (offset count least len : Nat) (k2 : Bool) : Option ErrCode :=
  (checkRange offset count s.ilen.toNat).or <|
    (checkMin count least).or <| (checkCap len).or (checkKtab k2 s.ktabValid)

/-- An operation's effect after its checks: the first failing check ends it before any write (R162, R197, R198). -/
def afterChecks (s : State) (failed : Option ErrCode) (effect : State) :
    Host.Outcome State Fault Refusal :=
  match failed with
  | some e => .next (s.raise e)
  | none => .next effect

end Sys2Proof.Machine
end

