-- ==== Sys2Proof/Machine/Keystream.lean ====
section
/-! DEFINITION. The units `keystream_table_init` (42_keystream_table_init.md) and `per_packet_keystream_xof`
(43_per_packet_keystream_xof.md), with the operations `GEN_KTAB` and `SET_SKEY`. -/

namespace Sys2Proof.Machine

/-- `HEXCHAR(v)`: the byte of the lowercase hexadecimal digit of `v` (R120). -/
def hexChar (v : Nat) : Byte :=
  if v ≤ 9 then BitVec.ofNat 8 (0x30 + v) else BitVec.ofNat 8 (0x61 + (v - 10))

/-- The two characters of one byte, the high nibble first (R120). -/
def hexPair (d : Byte) : List Byte := [hexChar (d >>> 4).toNat, hexChar (d &&& 15).toNat]

/-- `HEX(d)` (R120). -/
def hex (d : List Byte) : List Byte := d.flatMap hexPair

/-- `HASHTEXT(m) = HEX(H128(m))` (R121). -/
def hashText (m : List Byte) : List Byte := hex (Config.h128 m).toList

/-- `h_n` of the hash chain (R122). -/
def hashChain (name : List Byte) : Nat → List Byte
  | 0 => hashText (hashText name)
  | n + 1 => hashChain name n ++ hashText (hashChain name n)

/-- The text of bytes is two characters a byte. -/
theorem hex_length (d : List Byte) : (hex d).length = 2 * d.length := by
  induction d with
  | nil => rfl
  | cons b d ih => simp [hex, hexPair] at ih ⊢; omega

/-- A digest's text is 32 bytes (R121). -/
theorem hashText_length (m : List Byte) : (hashText m).length = 32 := by
  simp [hashText, hex_length]

/-- "`len(h_n) = 32 * (n + 1)`" (R123). -/
theorem hashChain_length (name : List Byte) (n : Nat) :
    (hashChain name n).length = 32 * (n + 1) := by
  induction n with
  | zero => simp [hashChain, hashText_length]
  | succ n ih => simp [hashChain, hashText_length, ih]; omega

/-- `KTAB_GEN(name)` is `h_31`, 1024 bytes (R122, R123). -/
@[irreducible] def ktabGen (name : List Byte) : Table 1024 :=
  ⟨⟨hashChain name 31⟩, by simp [hashChain_length]⟩

/-- The table's bytes are the last text of the chain (R122); proofs cite this and never unfold the table. -/
theorem ktabGen_toList (name : List Byte) : (ktabGen name).toList = hashChain name 31 := by
  unfold ktabGen; rfl

/-- `GEN_KTAB offset, count` (R127). -/
def execGenKtab (offset count : Nat) (s : State) : Host.Outcome State Fault Refusal :=
  afterChecks s (checkInside offset count s.ilen.toNat)
    ((s.setKtab (ktabGen (s.inputBytes offset count))).deliver [])

/-- The nine bytes at `offset` as a key (R130). -/
def State.inputKey (s : State) (offset : Nat) : Table 9 := tabulate 9 fun j => s.inputByte (offset + j)

/-- `SET_SKEY offset, count` (R130): the length is tested first. -/
def execSetSkey (offset count : Nat) (s : State) : Host.Outcome State Fault Refusal :=
  afterChecks s ((checkKeyLength count).or (checkInside offset 9 s.ilen.toNat))
    ((s.setSkey (s.inputKey offset)).deliver [])

/-- `idx(i)` of `PKEY_DERIVE`, on integers and then reduced (R135, R136). -/
def pkeyIndex (a b i : Nat) : Nat := (i * (9 * i + b * b) + a) % 1024

/-- The index is below 1024. -/
theorem pkeyIndex_lt (a b i : Nat) : pkeyIndex a b i < 1024 := Nat.mod_lt _ (by decide)

/-- `PKEY_DERIVE(T, a, b)` (R135). -/
def pkeyDerive (t : Table 1024) (a b : Nat) : Table 9 :=
  tabulate 9 fun i => t[pkeyIndex a b i]'(pkeyIndex_lt a b i)

/-- `KEYSEL(K2, a, b)` (46_packet_envelope_codec.md rule R163). -/
def keySel (s : State) (k2 : Bool) (a : BitVec 16) (b : Byte) : Table 9 :=
  if k2 then pkeyDerive s.ktab a.toNat b.toNat else s.skey

end Sys2Proof.Machine
end

