-- ==== Sys2Proof/Machine/Prg.lean ====
section
/-! DEFINITION. The unit `lcg_prng_15bit` (41_lcg_prng_15bit.md): it has no host operation of its own. -/

namespace Sys2Proof.Machine

/-- The new state of one step, `(s * 0x343FD + 0x269EC3) mod 2^32` (R110). The constants stand first so that the
kernel, when it compares two states, never counts one down in unary. -/
def prgStep (p : BitVec 32) : BitVec 32 := Config.lcgInc + Config.lcgMul * p

/-- The output of a new state, `(s' >> 16) & 0x7FFF` (R110). -/
def prgOutput (p : BitVec 32) : Nat := ((p >>> 16) &&& 0x7FFF).toNat

/-- `PRG_NEXT(s)`: the new state and its output (R110). -/
def prgNext (p : BitVec 32) : BitVec 32 × Nat := (prgStep p, prgOutput (prgStep p))

/-- The scalar `a` of `AB_DERIVE` (R114), on an arbitrary unsigned input. -/
def deriveA (out : Nat) : BitVec 16 := BitVec.ofNat 16 (out % Config.aMod + Config.aAdd)

/-- The scalar `b` of `AB_DERIVE` (R114), on an arbitrary unsigned input. -/
def deriveB (out : Nat) : Byte := BitVec.ofNat 8 ((out >>> 16) % Config.bMod + Config.bAdd)

/-- `AB_DERIVE(out)`: "the same `out` ... feeds both formulas" (R114). -/
def abDerive (out : Nat) : BitVec 16 × Byte := (deriveA out, deriveB out)

/-- `DRAW_AB()`: the pair drawn and the new generator state (R116). -/
def drawAB (p : BitVec 32) : (BitVec 16 × Byte) × BitVec 32 :=
  (abDerive (prgNext p).2, (prgNext p).1)

end Sys2Proof.Machine
end

