-- ==== Sys2Proof/Machine/Transform.lean ====
section
/-! DEFINITION. The units `xor_transform_engine` (44_xor_transform_engine.md) and `checksum_unit`
(45_checksum_unit.md): they have no host operation of their own. -/

namespace Sys2Proof.Machine

/-- `saltIndex` of R140 step 3. -/
def saltIndex (i : Nat) : Nat := i / 9 % 256

/-- A salt index is an index of the Salt Table. -/
theorem saltIndex_lt (i : Nat) : saltIndex i < 256 := Nat.mod_lt _ (by decide)

/-- What the transform makes of the byte `v` at position `i` of its range: the three steps of R140. -/
def xformByte (key : Table 9) (seq : Byte) (salt : Table 256) (i : Nat) (v : Byte) : Byte :=
  let v1 := v ^^^ salt[seq.toNat]'seq.isLt
  let v2 := v1 ^^^ key[i % 9]'(Nat.mod_lt _ (by decide))
  if saltIndex i ≠ seq.toNat then v2 ^^^ salt[saltIndex i]'(saltIndex_lt i) else v2

/-- `MASK(i)`, the closed form of the transform's effect on position `i` (R142). -/
def xformMask (key : Table 9) (seq : Byte) (salt : Table 256) (i : Nat) : Byte :=
  salt[seq.toNat]'seq.isLt ^^^ key[i % 9]'(Nat.mod_lt _ (by decide))
    ^^^ (if saltIndex i ≠ seq.toNat then salt[saltIndex i]'(saltIndex_lt i) else 0)

/-- `XFORM(buf, off, cnt, key, seq, salt)` (R140): only the range is changed, and a byte's position is counted
from the start of the range (R141). -/
def xform (buf : List Byte) (off cnt : Nat) (key : Table 9) (seq : Byte) (salt : Table 256) : List Byte :=
  buf.mapIdx fun k v => if off ≤ k ∧ k < off + cnt then xformByte key seq salt (k - off) v else v

/-- `CHECKSUM(m)`: the digest bytes at positions 13, 3, 11 and 7, in that order (R150). -/
def checksum (m : List Byte) : List Byte :=
  let d := Config.h128 m
  [d[13], d[3], d[11], d[7]]

end Sys2Proof.Machine
end

