-- ==== Sys2Proof/Machine/Codec.lean ====
section
/-! DEFINITION. The unit `packet_envelope_codec`: the `(a, b)` trailer and the operations `ENC_CLIENT`, `DEC_CLIENT`,
`ENC_SERVER` and `DEC_SERVER` (46_packet_envelope_codec.md). -/

namespace Sys2Proof.Machine

/-- `TRAILER(a, b, xa, xb)`: low byte of `a`, `b`, high byte of `a` (R166). -/
def trailer (a : BitVec 16) (b : Byte) (xa : BitVec 16) (xb : Byte) : List Byte :=
  let a' := a ^^^ xa
  let b' := b ^^^ xb
  [a'.extractLsb' 0 8, b', a'.extractLsb' 8 8]

/-- The scalar `a` of `UNTRAILER` (R166). -/
def untrailerA (t0 t2 : Byte) (xa : BitVec 16) : BitVec 16 :=
  (t0.zeroExtend 16 ||| (t2.zeroExtend 16 <<< 8)) ^^^ xa

/-- The scalar `b` of `UNTRAILER` (R166). -/
def untrailerB (t1 xb : Byte) : Byte := t1 ^^^ xb

/-- The byte `K2` adds to a client frame: the dup tag (R160). -/
def dupTag (k2 : Bool) (tag : Byte) : List Byte := if k2 then [tag] else []

/-- What `ENC_CLIENT` assembles before the transform: tag, sequence byte, `COUNT - 1` data bytes, pad, and the dup
tag when `K2 = 1` (R165). -/
def clientPlain (s : State) (base : Config.HdrBase) (offset count : Nat) (seq : Byte) (k2 : Bool) :
    List Byte :=
  let tag := s.tagByte base offset
  [tag, seq] ++ s.inputBytes (offset + 1) (count - 1) ++ [0] ++ dupTag k2 tag

/-- What `ENC_SERVER` assembles before the transform: tag, sequence byte and `COUNT - 1` data bytes (R175). -/
def serverPlain (s : State) (base : Config.HdrBase) (offset count : Nat) (seq : Byte) : List Byte :=
  [s.tagByte base offset, seq] ++ s.inputBytes (offset + 1) (count - 1)

/-- The bytes of the assembled buffer after the transform, which leaves the tag and the sequence byte as they
are (R165, R175). -/
def cipherBody (plain : List Byte) (key : Table 9) (seq : Byte) (salt : Table 256) : List Byte :=
  xform plain 2 (plain.length - 2) key seq salt

/-- The client-direction frame that `ENC_CLIENT` builds (R160, R165). -/
def clientFrame (s : State) (base : Config.HdrBase) (offset count : Nat) (seq : Byte) (k2 : Bool) :
    List Byte :=
  let ab := (drawAB s.prg).1
  let body := cipherBody (clientPlain s base offset count seq k2) (keySel s k2 ab.1 ab.2) seq s.salt
  body ++ checksum body ++ trailer ab.1 ab.2 Config.clientXorA Config.clientXorB

/-- The server-direction frame that `ENC_SERVER` builds (R173, R175). -/
def serverFrame (s : State) (base : Config.HdrBase) (offset count : Nat) (seq : Byte) (k2 : Bool) :
    List Byte :=
  let ab := (drawAB s.prg).1
  let body := cipherBody (serverPlain s base offset count seq) (keySel s k2 ab.1 ab.2) seq s.salt
  body ++ trailer ab.1 ab.2 Config.serverXorA Config.serverXorB

/-- The pair recovered from the last three bytes of a region (R170, R179). -/
def recoveredAB (s : State) (offset count : Nat) (xa : BitVec 16) (xb : Byte) : BitVec 16 × Byte :=
  (untrailerA (s.inputByte (offset + (count - 3))) (s.inputByte (offset + (count - 1))) xa,
    untrailerB (s.inputByte (offset + (count - 2))) xb)

/-- The `m` bytes of the region from its byte 2 on, deciphered (R170, R179). -/
def deciphered (s : State) (base : Config.HdrBase) (offset m : Nat) (key : Table 9) : List Byte :=
  xform (s.inputBytes (offset + 2) m) 0 m key (s.seqByte base offset) s.salt

/-- The payload that `DEC_CLIENT` returns: the tag, then the deciphered bytes less the pad and, when `K2 = 1`,
the dup tag (R170). -/
def clientPayload (s : State) (base : Config.HdrBase) (offset count : Nat) (k2 : Bool) : List Byte :=
  let ab := recoveredAB s offset count Config.clientXorA Config.clientXorB
  let m := count - 9
  let w := deciphered s base offset m (keySel s k2 ab.1 ab.2)
  s.tagByte base offset :: w.take (m - 1 - k2.toNat)

/-- The payload that `DEC_SERVER` returns: the tag, then all the deciphered bytes (R179). -/
def serverPayload (s : State) (base : Config.HdrBase) (offset count : Nat) (k2 : Bool) : List Byte :=
  let ab := recoveredAB s offset count Config.serverXorA Config.serverXorB
  s.tagByte base offset :: deciphered s base offset (count - 5) (keySel s k2 ab.1 ab.2)

/-- `ENC_CLIENT` under either value of `HDR_BASE` (R161, R165). -/
def encClientAt (base : Config.HdrBase) (offset count : Nat) (seq : Byte) (k2 : Bool) (s : State) :
    Host.Outcome State Fault Refusal :=
  afterChecks s (dataCheck s offset count 1 (count + 9 + k2.toNat) k2)
    ((s.setPrg (drawAB s.prg).2).deliver (clientFrame s base offset count seq k2))

/-- `DEC_CLIENT` under either value of `HDR_BASE` (R161, R170). -/
def decClientAt (base : Config.HdrBase) (offset count : Nat) (k2 : Bool) (s : State) :
    Host.Outcome State Fault Refusal :=
  afterChecks s (dataCheck s offset count (10 + k2.toNat) count k2)
    (s.deliver (clientPayload s base offset count k2))

/-- `ENC_SERVER` under either value of `HDR_BASE` (R161, R175). -/
def encServerAt (base : Config.HdrBase) (offset count : Nat) (seq : Byte) (k2 : Bool) (s : State) :
    Host.Outcome State Fault Refusal :=
  afterChecks s (dataCheck s offset count 1 (count + 4) k2)
    ((s.setPrg (drawAB s.prg).2).deliver (serverFrame s base offset count seq k2))

/-- `DEC_SERVER` under either value of `HDR_BASE` (R161, R179). -/
def decServerAt (base : Config.HdrBase) (offset count : Nat) (k2 : Bool) (s : State) :
    Host.Outcome State Fault Refusal :=
  afterChecks s (dataCheck s offset count 5 count k2)
    (s.deliver (serverPayload s base offset count k2))

/-- `ENC_CLIENT offset, count, seq, k2` (R165). -/
def execEncClient (offset count : Nat) (seq : Byte) (k2 : Bool) (s : State) :
    Host.Outcome State Fault Refusal :=
  encClientAt Config.hdrBase offset count seq k2 s

/-- `DEC_CLIENT offset, count, k2` (R170). -/
def execDecClient (offset count : Nat) (k2 : Bool) (s : State) : Host.Outcome State Fault Refusal :=
  decClientAt Config.hdrBase offset count k2 s

/-- `ENC_SERVER offset, count, seq, k2` (R175). -/
def execEncServer (offset count : Nat) (seq : Byte) (k2 : Bool) (s : State) :
    Host.Outcome State Fault Refusal :=
  encServerAt Config.hdrBase offset count seq k2 s

/-- `DEC_SERVER offset, count, k2` (R179). -/
def execDecServer (offset count : Nat) (k2 : Bool) (s : State) : Host.Outcome State Fault Refusal :=
  decServerAt Config.hdrBase offset count k2 s

end Sys2Proof.Machine
end

