-- ==== Sys2Proof/Machine/Salt.lean ====
section
/-! DEFINITION. The unit `salt_table_generator` and the operation `SET_SEED` (40_salt_table_generator.md). -/

namespace Sys2Proof.Machine

/-- `s(i)` of R92: -1 when `i` is odd and 1 when it is even. -/
def saltSign (i : Int) : Int := if i % 2 ≠ 0 then -1 else 1

/-- `F_0` (R91). -/
def saltF0 (i : Int) : Int := i
/-- `F_1` (R92). -/
def saltF1 (i : Int) : Int := saltSign i * Int.tdiv (i + 1) 2 + 128
/-- `F_2` (R93). -/
def saltF2 (i : Int) : Int := 255 - i
/-- `F_3` (R94). -/
def saltF3 (i : Int) : Int := saltSign i * Int.tdiv (255 - i) 2 + 128
/-- `F_4` (R95). -/
def saltF4 (i : Int) : Int := Int.tdiv i 16 * Int.tdiv i 16
/-- `F_5` (R96). -/
def saltF5 (i : Int) : Int := (2 * i) % 256
/-- `F_6` (R97). -/
def saltF6 (i : Int) : Int := 255 - (2 * i) % 256
/-- `F_7` (R98). -/
def saltF7 (i : Int) : Int := if i > 127 then 2 * i - 256 else 255 - 2 * i
/-- `F_8` (R99). -/
def saltF8 (i : Int) : Int := if i > 127 then 511 - 2 * i else 2 * i
/-- `F_9` (R100), with `q = tdiv(i - 128, 8)`: the division truncates toward zero. -/
def saltF9 (i : Int) : Int := 255 - (Int.tdiv (i - 128) 8 * Int.tdiv (i - 128) 8) % 256

/-- The formula `F_seed` (R90). -/
def saltFormula (seed : Fin 10) : Int → Int :=
  match seed with
  | 0 => saltF0
  | 1 => saltF1
  | 2 => saltF2
  | 3 => saltF3
  | 4 => saltF4
  | 5 => saltF5
  | 6 => saltF6
  | 7 => saltF7
  | 8 => saltF8
  | 9 => saltF9

/-- `SALTGEN(seed)`: entry `i` is `trunc8(F_seed(i))` (R90); "not defined for `seed > 9`", so its seed is below 10. -/
def saltGen (seed : Fin 10) : Table 256 := tabulate 256 fun i => trunc8 (saltFormula seed i)

/-- `SET_SEED seed` (R103). -/
def execSetSeed (seed : Nat) (s : State) : Host.Outcome State Fault Refusal :=
  if h : seed < Config.seedMax + 1 then
    .next ((s.setSalt (BitVec.ofNat 4 seed) (saltGen ⟨seed, h⟩)).deliver [])
  else .next (s.raise .seedRange)

end Sys2Proof.Machine
end

