-- ==== Sys2Proof/Machine/Dispatch.lean ====
section
/-! DEFINITION. The one dispatch over the instructions: one arm per constructor, each a direct call of its meaning. -/

namespace Sys2Proof.Machine

/-- The effect of a decoded command (20_memory.md rule R58: one whole host operation). -/
def exec (i : Instr) (s : State) : Host.Outcome State Fault Refusal :=
  match i with
  | .setSeed seed => Sys2Proof.Machine.execSetSeed seed s
  | .setSkey offset count => Sys2Proof.Machine.execSetSkey offset count s
  | .genKtab offset count => Sys2Proof.Machine.execGenKtab offset count s
  | .encClient offset count seq k2 => Sys2Proof.Machine.execEncClient offset count seq k2 s
  | .decClient offset count k2 => Sys2Proof.Machine.execDecClient offset count k2 s
  | .encServer offset count seq k2 => Sys2Proof.Machine.execEncServer offset count seq k2 s
  | .decServer offset count k2 => Sys2Proof.Machine.execDecServer offset count k2 s

end Sys2Proof.Machine
end

