-- ==== Sys2Proof/Machine/Flags.lean ====
section
/-! DEFINITION. `STATUS` and the host's view of the registers. The block "has no arithmetic flags, condition codes or
predicates" (10_state.md rule R35); `DONE`, `ERR` and `KTAB_VALID` are all the flag-like state. -/

namespace Sys2Proof.Machine

/-- The numeric code in `STATUS.ERR` (60_exceptions.md rule R190). -/
def ErrCode.code : ErrCode → BitVec 4
  | .none => 0
  | .seedRange => 1
  | .keyLength => 2
  | .outOfRange => 3
  | .countTooSmall => 4
  | .capacity => 5
  | .ktabNotReady => 6
  | .illegalCommand => 7

/-- The register `STATUS` (R32): `ERR` in bits 7:4, bit 3 reads 0, `KTAB_VALID`, `DONE`, `BUSY`. -/
def State.status (s : State) : Byte :=
  (s.err.code.zeroExtend 8 <<< 4) ||| ((BitVec.ofBool s.ktabValid).zeroExtend 8 <<< 2)
    ||| ((BitVec.ofBool s.done).zeroExtend 8 <<< 1) ||| (BitVec.ofBool s.busy).zeroExtend 8

/-- What a host read of register number `n` returns (R34): `CMD` is write only and numbers 5 and above are
reserved, and both return 0; unused upper bits read 0 (20_memory.md rule R56). -/
def State.regValue (s : State) (n : Nat) : BitVec 64 :=
  match n with
  | 1 => s.status.zeroExtend 64
  | 2 => s.ilen.zeroExtend 64
  | 3 => s.olen.zeroExtend 64
  | 4 => s.seed.zeroExtend 64
  | _ => 0

/-- The result of the last operation, `SCRATCH[0 .. OLEN)` (R30, 20_memory.md rule R53). -/
def State.resultBytes (s : State) : Option (List Byte) := s.scratch.readBytes 0 s.olen.toNat

end Sys2Proof.Machine
end

