-- ==== Sys2Proof/Machine/HostPort.lean ====
section
/-! DEFINITION. The host interface: what each host move does (70_reset_and_hazards.md rule R228, 10_state.md rules R33
and R34, 20_memory.md rules R53 and R56, 30_encoding.md rule R77). -/

namespace Sys2Proof.Machine

/-- A write of the word `w` to `CMD`. While `BUSY = 1` it "is not accepted" and has no effect (R33, R222).
Otherwise the block accepts it and performs the operation it encodes, or raises `IllegalCommand` (R195). -/
def writeCmd (w : BitVec 64) (s : State) : Host.Outcome State Fault Refusal :=
  if s.busy then .next s
  else
    match decode w with
    | .ok i => exec i s.accept
    | .error _ => .next (s.accept.raise .illegalCommand)

/-- A host write of the input buffer or its length: refused while `BUSY = 1` (R221), else `t` is the state. -/
def inputWrite (s t : State) : Host.Outcome State Fault Refusal :=
  if s.busy then .refused .inputWrittenWhileBusy else .next t

/-- A host move on index `k` of a buffer of `cap` bytes: an index outside it names no byte (R50). -/
def indexed (space : Space) (cap k : Nat) (inside : Host.Outcome State Fault Refusal) :
    Host.Outcome State Fault Refusal :=
  if k < cap then inside else .fault (.outsideBuffer space k)

/-- A write of `v` to register number `n` (R34): `CMD`, `ILEN`, and no effect on any other number. -/
def writeReg (n : Nat) (v : BitVec 64) (s : State) : Host.Outcome State Fault Refusal :=
  match n with
  | 0 => writeCmd v s
  | 2 => inputWrite s (s.setIlen (v.truncate 16))
  | _ => .next s

/-- A read of result-window index `k` (R53): specified after an operation that ended without error, below `OLEN`,
and until the next command is accepted (R223); any other read is refused. -/
def readResult (k : Nat) (s : State) : Host.Outcome State Fault Refusal :=
  if s.done = true ∧ s.err = .none ∧ k < s.olen.toNat then
    match s.scratch.read k with
    | some v => .next (s.answer (v.zeroExtend 64))
    | none => .refused (.unspecifiedResult k)
  else .refused (.unspecifiedResult k)

/-- The low and the high byte of `ILEN` written alone, as a host bus of bytes does (R54.4, R56). -/
def State.setIlenByte (s : State) (high : Bool) (v : Byte) : State :=
  if high then s.setIlen (v ++ s.ilen.extractLsb' 0 8) else s.setIlen (s.ilen.extractLsb' 8 8 ++ v)

/-- One byte written at a bus address outside `CMD` (R56). -/
def busWriteByte (addr : Nat) (v : Byte) (s : State) : Host.Outcome State Fault Refusal :=
  if addr = 0x10 then inputWrite s (s.setIlenByte false v)
  else if addr = 0x11 then inputWrite s (s.setIlenByte true v)
  else if 0x10000 ≤ addr ∧ addr ≤ 0x1FFFE then
    inputWrite s (s.setIbuf (s.ibuf.write (addr - 0x10000) v))
  else .next s

/-- Bytes written at rising bus addresses outside `CMD` (R56). -/
def busWriteBytes : Nat → List Byte → State → Host.Outcome State Fault Refusal
  | _, [], s => .next s
  | addr, b :: bs, s =>
    match busWriteByte addr b s with
    | .next t => busWriteBytes (addr + 1) bs t
    | .fault f => .fault f
    | .refused r => .refused r

/-- One write on the host bus (R56). `CMD` is written by one write of its eight bytes, little-endian (R54.4); a
write that covers `CMD` in any other way is refused (assumption 11). -/
def busWrite (addr : Nat) (bytes : List Byte) (s : State) : Host.Outcome State Fault Refusal :=
  if addr = 0 ∧ bytes.length = 8 then writeCmd (wordOfBytes bytes) s
  else if addr < 8 ∧ bytes ≠ [] then .refused .partialCommandWrite
  else busWriteBytes addr bytes s

/-- One byte read on the host bus (R56): the registers little-endian at `8 * n`, the input buffer, the result
window, and 0 at every reserved address (U16). -/
def busRead (addr : Nat) (s : State) : Host.Outcome State Fault Refusal :=
  if addr ≤ 0x27 then .next (s.answer ((byteOfWord (s.regValue (addr / 8)) (addr % 8)).zeroExtend 64))
  else if 0x10000 ≤ addr ∧ addr ≤ 0x1FFFE then
    .next (s.answer ((s.inputByte (addr - 0x10000)).zeroExtend 64))
  else if 0x20000 ≤ addr ∧ addr ≤ 0x2FFFB then readResult (addr - 0x20000) s
  else .next (s.answer 0)

/-- The input buffer and its length loaded with `bytes` (R77, `.ibuf`). -/
def State.loadInput (s : State) (bytes : List Byte) : State :=
  (s.setIbuf (s.ibuf.writeBytes 0 bytes)).setIlen (BitVec.ofNat 16 bytes.length)

/-- The directive `.ibuf` (R77): at most `IBUF_CAP` bytes exist (00_scope.md rule R8). -/
def loadIbuf (bytes : List Byte) (s : State) : Host.Outcome State Fault Refusal :=
  if bytes.length ≤ Config.ibufCap then inputWrite s (s.loadInput bytes)
  else .fault (.outsideBuffer .ibuf Config.ibufCap)

/-- The directive `.ibuf_from_result` (R77): the host copies `SCRATCH[0 .. OLEN)` to the input buffer. -/
def ibufFromResult (s : State) : Host.Outcome State Fault Refusal :=
  match s.resultBytes with
  | some bytes => loadIbuf bytes s
  | none => .refused (.unspecifiedResult 0)

/-- What a host move does (R228). -/
def hostMove (m : HostMove) (s : State) : Host.Outcome State Fault Refusal :=
  match m with
  | .reset => .next s.resetNow
  | .command w => writeCmd w s
  | .writeReg n v => writeReg n v s
  | .readReg n => .next (s.answer (s.regValue n))
  | .writeIbuf k v => indexed .ibuf Config.ibufCap k (inputWrite s (s.setIbuf (s.ibuf.write k v)))
  | .readIbuf k => indexed .ibuf Config.ibufCap k (.next (s.answer ((s.inputByte k).zeroExtend 64)))
  | .writeResult k _ => indexed .scratch Config.scratchCap k (.next s)
  | .readResult k => indexed .scratch Config.scratchCap k (readResult k s)
  | .busWrite addr bytes => busWrite addr bytes s
  | .busRead addr => busRead addr s
  | .loadIbuf bytes => loadIbuf bytes s
  | .ibufFromResult => ibufFromResult s

/-- The directive `CONSTRUCT seed, k0 .. k8` (R77): `RESET`; `SET_SEED seed`; `.ibuf k0 .. k8`; `SET_SKEY 0, 9`. -/
def constructMoves (seed : Nat) (key : List Byte) : List HostMove :=
  [.reset, .command (encode (.setSeed seed)), .loadIbuf key, .command (encode (.setSkey 0 9))]

end Sys2Proof.Machine
end

