-- ==== Sys2Proof/Machine/Step.lean ====
section
/-! DEFINITION. One step of the machine: the oldest host move is taken from the queue and performed, a command being
performed whole (10_state.md rule R21, 20_memory.md rule R58). With no move to come the block is idle "and its state
does not change" (R21). -/

namespace Sys2Proof.Machine

/-- One step (R21, R59: the moves happen in order). -/
def step (s : State) : Host.Outcome State Fault Refusal :=
  match s.inbox with
  | [] => .next s
  | m :: rest => hostMove m (s.popped rest)

/-- `s` with the command word whose low `nbits` bits are those of `w` as the next host move, and the block ready
to accept it. -/
def State.withFetchWord (s : State) (nbits w : Nat) : State :=
  { s with busy := false, inbox := .command (BitVec.ofNat 64 (w % (1 <<< nbits))) :: s.inbox }

end Sys2Proof.Machine
end

