-- ==== Sys2Proof/Safety.lean ====
section
/-! DEFINITION. What counts as a sound state and a safe run: the invariant that the prose of 10_state.md states, the
duties of the host (70_reset_and_hazards.md rule R228), and the observable outcome of a run (R229). -/

namespace Sys2Proof.Safety

open Sys2Proof.Machine

/-- What holds "after reset and after every host operation" (10_state.md rules R22 to R32). -/
structure Inv (s : State) : Prop where
  /-- `SEED` holds 0 to 9 and `SALT` is its table (R22, R23). -/
  salt_of_seed : ∃ h : s.seed.toNat < 10, s.salt = saltGen ⟨s.seed.toNat, h⟩
  /-- A valid Keystream Table is the table of some name (R25, R26). -/
  ktab_of_name : s.ktabValid = true → ∃ name, s.ktab = ktabGen name
  /-- The specified bytes of `SCRATCH` are exactly the result, `SCRATCH[0 .. OLEN)` (R30). -/
  scratch_is_result : s.scratch.map Prod.fst = List.range s.olen.toNat
  /-- "Logical length ... never exceeds buffer capacity" (R30, R31). -/
  olen_fits : s.olen.toNat ≤ Config.scratchCap
  /-- The input buffer keeps its canonical form (R29). -/
  ibuf_wf : s.ibuf.wf Config.ibufCap
  /-- An operation that ended in error has no result (R31). -/
  error_empty : s.err ≠ .none → s.olen = 0
  /-- Before the first operation after reset there is no result and no error (R31, R32). -/
  fresh_empty : s.done = false → s.olen = 0 ∧ s.err = .none
  /-- A model that steps one whole operation at a time always shows `BUSY = 0` (R32). -/
  idle : s.busy = false

/-- The host's duty on the result window: "read only indices below `OLEN`, only when `ERR = 0`, before the next
command" (R228). -/
def mayReadResult (s : State) (k : Nat) : Prop :=
  s.done = true ∧ s.err = .none ∧ k < s.olen.toNat

/-- The host's duty for each of its moves in a state where the block is idle (R228, R8, R53). Two of the duties are
the model's own: that an index names a byte of its buffer (assumption 13), and that `CMD` is written on the bus by one
write of its eight bytes (assumption 11). -/
def hostDuty (m : HostMove) (s : State) : Prop :=
  match m with
  | .reset => True
  | .command _ => True
  | .writeReg _ _ => True
  | .readReg _ => True
  | .writeIbuf k _ => k < Config.ibufCap
  | .readIbuf k => k < Config.ibufCap
  | .writeResult k _ => k < Config.scratchCap
  | .readResult k => mayReadResult s k
  | .busWrite addr bytes => addr < 8 → bytes = [] ∨ (addr = 0 ∧ bytes.length = 8)
  | .busRead addr => 0x20000 ≤ addr → addr ≤ 0x2FFFB → mayReadResult s (addr - 0x20000)
  | .loadIbuf bytes => bytes.length ≤ Config.ibufCap
  | .ibufFromResult => True

/-- What the host observes of an ended operation: "its `STATUS.ERR`, its `OLEN` and, when `ERR = 0`, its result
bytes" (R229). -/
structure Observation where
  err : ErrCode
  olen : BitVec 16
  result : Option (List Byte)
  deriving DecidableEq, Repr

/-- The observation of the last operation (R229). -/
def observe (s : State) : Observation where
  err := s.err
  olen := s.olen
  result := if s.err = .none then s.resultBytes else none

/-- A run "has ended when the host issues no further command and the last accepted operation has reached
`DONE = 1`" (R229): no move is to come and the block is idle. -/
def runEnded (s : State) : Prop := s.inbox = [] ∧ s.busy = false

/-- Whether a host move is a write to `CMD`, in any of its three forms (R33, R34, R54). -/
def isCommand (m : HostMove) : Bool :=
  match m with
  | .command _ => true
  | .writeReg n _ => n == 0
  | .busWrite addr bytes => addr == 0 && bytes.length == 8
  | .reset => false
  | .readReg _ => false
  | .writeIbuf _ _ => false
  | .readIbuf _ => false
  | .writeResult _ _ => false
  | .readResult _ => false
  | .busRead _ => false
  | .loadIbuf _ => false
  | .ibufFromResult => false

/-- Whether the next step accepts a command: a write to `CMD` is to come and `BUSY = 0` (R33, R222). -/
def acceptsCommand (s : State) : Bool := !s.busy && s.inbox.head?.any isCommand

/-- "The observable outcome of a run" (R229): what the host observes of each command, in order, and "at the end the
host-readable registers", which are `STATUS`, `ILEN`, `OLEN` and `SEED` (R34). -/
structure RunOutcome where
  commands : List Observation
  status : Byte
  ilen : BitVec 16
  olen : BitVec 16
  seed : BitVec 4
  deriving DecidableEq, Repr

/-- The outcome of a run that has ended in `s` after the commands observed as `seen` (R229). -/
def outcomeAt (seen : List Observation) (s : State) : RunOutcome where
  commands := seen
  status := s.status
  ilen := s.ilen
  olen := s.olen
  seed := s.seed

/-- The outcome of `k` steps from `s`, of a run that has shown `seen` so far: a step that accepts a command adds the
observation of its operation, which the step has brought to `DONE = 1` (R229). -/
def observeSteps : Nat → List Observation → State → Host.Outcome RunOutcome Fault Refusal
  | 0, seen, s => .next (outcomeAt seen s)
  | k + 1, seen, s =>
    match step s with
    | .next t => observeSteps k (if acceptsCommand s then seen ++ [observe t] else seen) t
    | .fault f => .fault f
    | .refused r => .refused r

/-- The state at the start of a run: the reset state with the host's moves to come (R229). -/
def runStart (moves : List HostMove) : State := State.reset.popped moves

/-- The observable outcome of the run that makes the host moves `moves` "starting from the reset state" (R229). -/
def runOutcome (moves : List HostMove) : Host.Outcome RunOutcome Fault Refusal :=
  observeSteps moves.length [] (runStart moves)

/-- Commands performed one after another, each "issued after the previous one's `DONE`" (20_memory.md rule R59). -/
def execAll : List Instr → State → Host.Outcome State Fault Refusal
  | [], s => .next s
  | i :: is, s =>
    match exec i s with
    | .next t => execAll is t
    | .fault f => .fault f
    | .refused r => .refused r

/-- Whether an instruction is one of the two encrypt operations, which alone step the generator (R113). -/
def isEncrypt : Instr → Bool
  | .encClient _ _ _ _ => true
  | .encServer _ _ _ _ => true
  | .setSeed _ => false
  | .setSkey _ _ => false
  | .genKtab _ _ => false
  | .decClient _ _ _ => false
  | .decServer _ _ _ => false

/-- How many of the commands were encrypt operations that ended without error (R113). -/
def encryptsDone : List Instr → State → Nat
  | [], _ => 0
  | i :: is, s =>
    match exec i s with
    | .next t => (if isEncrypt i = true ∧ t.err = .none then 1 else 0) + encryptsDone is t
    | _ => 0

end Sys2Proof.Safety
end

