-- ==== Sys2Proof/Certificates/Slice0/Obligations.lean ====
section
/-! DEFINITION. The statements about the machine, each a formalisation of the numbered rules its docstring cites. -/

namespace Sys2Proof.Claims

open Sys2Proof.Machine

/-- Every register that carries meaning across operations is unchanged (R198). -/
def EngineKept (s t : State) : Prop :=
  t.seed = s.seed ∧ t.salt = s.salt ∧ t.skey = s.skey ∧ t.ktab = s.ktab ∧ t.ktabValid = s.ktabValid
    ∧ t.prg = s.prg

/-- The host's side is unchanged: `ILEN`, every byte of `IBUF`, the moves to come, the value last read. -/
def HostSideKept (s t : State) : Prop :=
  t.ilen = s.ilen ∧ (∀ k, t.inputByte k = s.inputByte k) ∧ t.ibuf = s.ibuf ∧ t.inbox = s.inbox
    ∧ t.hostData = s.hostData

/-- The operation ended without error and delivered the bytes `r`: they are the result, and no other byte of `SCRATCH`
holds a specified value (R10, R30, R31, R53). -/
def EndedWith (t : State) (r : List Byte) : Prop :=
  t.busy = false ∧ t.done = true ∧ t.err = .none ∧ t.olen.toNat = r.length ∧ t.resultBytes = some r
    ∧ ∀ k, t.scratch.read k = r[k]?

/-- The operation ended with the error `e` (R198). -/
def EndedInError (t : State) (e : ErrCode) : Prop :=
  t.busy = false ∧ t.done = true ∧ t.err = e ∧ t.olen = 0

/-- The four checks of a data operation pass (R192, R193, R194, R196). -/
abbrev RegionAccepted (s : State) (offset count least len : Nat) (k2 : Bool) : Prop :=
  offset < s.ilen.toNat ∧ offset + count ≤ s.ilen.toNat ∧ least ≤ count ∧ len ≤ 65532
    ∧ (k2 = true → s.ktabValid = true)

/-- The code of the first failing check of a data operation, or none (R192, R193, R194, R196, R197). -/
def FirstFailure (s : State) (offset count least len : Nat) (k2 : Bool) : ErrCode :=
  if ¬(offset < s.ilen.toNat ∧ offset + count ≤ s.ilen.toNat) then .outOfRange
  else if count < least then .countTooSmall
  else if 65532 < len then .capacity
  else if k2 = true ∧ s.ktabValid = false then .ktabNotReady
  else .none

/-- The key of a transform (R163). -/
def TransformKey (s : State) (k2 : Bool) (a : BitVec 16) (b : Byte) : Table 9 :=
  if k2 = true then pkeyDerive s.ktab a.toNat b.toNat else s.skey

/-- The scalar `a` that the next encrypt draws (R116). -/
def DrawnA (s : State) : BitVec 16 := deriveA (prgNext s.prg).2

/-- The scalar `b` that the next encrypt draws (R116). -/
def DrawnB (s : State) : Byte := deriveB (prgNext s.prg).2

/-- Two states agree on what decides a transform: the tables and keys (R180). -/
def SameKeys (s1 s2 : State) (k2 : Bool) : Prop :=
  s2.salt = s1.salt ∧ s2.skey = s1.skey ∧
    (k2 = true → s1.ktabValid = true ∧ s2.ktabValid = true ∧ s2.ktab = s1.ktab)

/-- Nothing changed that "the host cannot write ... directly": `SEED`, `SALT`, `SKEY`, `KTAB`, `PRG`, `SCRATCH`, `OLEN`,
`STATUS` (R228), and so the result is the same. -/
def NotHostWritableKept (s t : State) : Prop :=
  EngineKept s t ∧ t.scratch = s.scratch ∧ t.olen = s.olen ∧ t.resultBytes = s.resultBytes ∧ t.status = s.status

/-- The host has written `bytes` to `IBUF[0 .. n)` and their number `n` to `ILEN`; every other input byte is as it was
(R77). -/
def InputReplaced (s t : State) (bytes : List Byte) : Prop :=
  t.ilen.toNat = bytes.length ∧ (∀ (k : Nat) (h : k < bytes.length), t.inputByte k = bytes[k]) ∧
    ∀ k, bytes.length ≤ k → t.inputByte k = s.inputByte k

/-- The input buffer of a state holds exactly the bytes `f`. -/
def InputIs (s : State) (f : List Byte) : Prop :=
  s.ilen.toNat = f.length ∧ ∀ k < f.length, f[k]? = some (s.inputByte k)

/-- Whether an instruction is a data operation with the given `K2`. -/
def IsDataOp (i : Instr) (k2 : Bool) : Prop :=
  (∃ o c seq, i = .encClient o c seq k2) ∨ (∃ o c, i = .decClient o c k2)
    ∨ (∃ o c seq, i = .encServer o c seq k2) ∨ ∃ o c, i = .decServer o c k2

end Sys2Proof.Claims

open Sys2Proof Sys2Proof.Machine Sys2Proof.Safety Sys2Proof.Claims

/-! ### The command word -/

/-- Words of 95_test_vectors.md section 2.9 and of R76 decode to the commands they stand for. -/
def Obligations.SpecWordsDecodeToTheirCommands : Prop :=
  decode 0x000A000000050010 = .ok (.encClient 0 10 5 false) ∧
  decode 0x0004000200FF0110 = .ok (.encClient 2 4 255 true) ∧
  decode 0x0000000000090001 = .ok (.setSeed 9) ∧
  decode 0x0009000000000002 = .ok (.setSkey 0 9) ∧
  decode 0x0004000000000003 = .ok (.genKtab 0 4) ∧
  decode 0x000E000000000111 = .ok (.decClient 0 14 true) ∧
  decode 0x000C000000C80112 = .ok (.encServer 0 12 200 true) ∧
  decode 0x0010000000000113 = .ok (.decServer 0 16 true)

/-- For every well-formed instruction, with every operand at every value its field admits, decoding its word, and
decoding the word's eight bytes in the bus order, gives it back (R70, R73, R54). -/
def Obligations.DecodingAnEncodingGivesTheInstruction : Prop :=
  ∀ i : Instr, i.WellFormed →
    decode (encode i) = .ok i ∧ decodeBytes (bytesOfWord (encode i)) = .ok i

/-- A word that decodes is the word of the instruction it decodes to, which is well formed: no bit of a legal word
is ignored (R70, R73, R74). -/
def Obligations.EveryLegalWordIsAnEncoding : Prop :=
  ∀ (w : BitVec 64) (i : Instr), decode w = .ok i → i.WellFormed ∧ encode i = w

/-- R75: for every 64-bit word exactly one row matches and decides the instruction, or none does and the word is
rejected. -/
def Obligations.ExactlyOneRowMatchesOrTheWordIsIllegal : Prop :=
  ∀ w : BitVec 64,
    (∃ o : Opcode, o.selects w = true ∧ (∀ o' : Opcode, o'.selects w = true → o' = o) ∧
      decode w = .ok (o.operands w)) ∨
    ((∀ o : Opcode, o.selects w = false) ∧ ∃ e, decode w = .error e)

/-- R76: the assembler form of a well-formed instruction, its mnemonic and its operands in order, assembles to it. -/
def Obligations.AssemblerFormAssemblesToTheInstruction : Prop :=
  ∀ i : Instr, i.WellFormed → assemble i.mnemonic i.asmOperands = some i

/-! ### The step -/

/-- A step whose next host move is a command that decodes performs `exec` of the decoded instruction on the state
with the move taken and the command accepted (R33, R58). The queue of moves is the model's own (assumption 1). -/
def Obligations.StepRunsTheDecodedInstruction : Prop :=
  ∀ (s : State) (w : BitVec 64) (rest : List HostMove) (i : Instr),
    s.inbox = .command w :: rest → s.busy = false → decode w = .ok i →
      step s = exec i (s.popped rest).accept

/-- R195: a command word that matches no row ends at once with `ERR = 7`, `OLEN = 0`, `DONE = 1`, and no engine
register and no input byte changes. The working storage is left out: as after every error the model leaves `SCRATCH`
unspecified and `PKEY` free (assumption 7 for `SCRATCH`, assumption 5 for `PKEY`).
The queue of host moves is the model's own (assumption 1). -/
def Obligations.UnmatchedWordEndsInIllegalCommand : Prop :=
  ∀ (s : State) (w : BitVec 64) (rest : List HostMove),
    s.inbox = .command w :: rest → s.busy = false → (∀ o : Opcode, o.selects w = false) →
      ∃ t, step s = .next t ∧ EndedInError t .illegalCommand ∧ EngineKept s t
        ∧ HostSideKept (s.popped rest) t

/-- R222: a command written while `BUSY = 1` has no effect on any state; the move is only taken from the queue.
The queue of host moves is the model's own (assumption 1). -/
def Obligations.CommandWrittenWhileBusyIsDropped : Prop :=
  ∀ (s : State) (w : BitVec 64) (rest : List HostMove),
    s.inbox = .command w :: rest → s.busy = true → step s = .next (s.popped rest)

/-- R221: a host write of `IBUF` or `ILEN` while `BUSY = 1` is given no meaning: the step is refused by name, whether
the write names one input byte, the register `ILEN`, bytes on the bus of which one is of `ILEN` or `IBUF` (a write of
several bytes is refused whole: assumption 12), or is a directive. A copy of a result that is not there is refused for
that (assumption 15).
The queue of host moves is the model's own (assumption 1). -/
def Obligations.InputWrittenWhileBusyIsRefused : Prop :=
  ∀ (s : State) (rest : List HostMove), s.busy = true →
    (∀ (k : Nat) (v : Byte) (n : BitVec 64), k < 65535 →
      (s.inbox = .writeIbuf k v :: rest ∨ s.inbox = .writeReg 2 n :: rest) →
        step s = .refused .inputWrittenWhileBusy) ∧
    (∀ (addr : Nat) (bytes : List Byte), s.inbox = .busWrite addr bytes :: rest → 8 ≤ addr →
      (∃ j < bytes.length, addr + j = 0x10 ∨ addr + j = 0x11 ∨ (0x10000 ≤ addr + j ∧ addr + j ≤ 0x1FFFE)) →
        step s = .refused .inputWrittenWhileBusy) ∧
    (∀ bytes : List Byte, s.inbox = .loadIbuf bytes :: rest → bytes.length ≤ 65535 →
      step s = .refused .inputWrittenWhileBusy) ∧
    (s.inbox = .ibufFromResult :: rest →
      (∀ r, s.resultBytes = some r → step s = .refused .inputWrittenWhileBusy) ∧
      (s.resultBytes = none → step s = .refused (.unspecifiedResult 0)))

/-- R21: between operations the block is idle and its state does not change.
The queue of host moves is the model's own (assumption 1). -/
def Obligations.IdleBlockKeepsItsState : Prop :=
  ∀ s : State, s.inbox = [] → step s = .next s

/-- R190, R31, R32: in every state every operation ends, with `DONE = 1` and `BUSY = 0`, in exactly one way: without
error, or with a code 1 to 6 and no result. -/
def Obligations.EveryOperationEndsInExactlyOneWay : Prop :=
  ∀ (i : Instr) (s : State), ∃ t, exec i s = .next t ∧ t.busy = false ∧ t.done = true ∧
    (t.err ≠ .none → t.olen = 0 ∧ 1 ≤ t.err.code.toNat ∧ t.err.code.toNat ≤ 6) ∧
    (t.err = .none ↔ t.err.code = 0)

/-! ### Reset and the invariant -/

/-- R39: the reset values. -/
def Obligations.ResetLeavesTheStatedValues : Prop :=
  State.reset.seed = 0 ∧ (∀ (i : Nat) (h : i < 256), State.reset.salt[i] = BitVec.ofNat 8 i) ∧
  State.reset.skey = Config.defaultStaticKeystream ∧ State.reset.ktabValid = false ∧
  State.reset.prg = 1 ∧ State.reset.olen = 0 ∧ State.reset.ilen = 0 ∧ State.reset.status = 0x00

/-- R215: a reset asserted in any state, a busy one too, puts every element that has a reset value at it; what the
host has still to do and what it has read stay (the model's choice, assumptions 1 and 14). -/
def Obligations.ResetMoveRestoresTheStatedValues : Prop :=
  ∀ (s : State) (rest : List HostMove), s.inbox = .reset :: rest →
    ∃ t, step s = .next t ∧ t.seed = 0 ∧ t.salt = saltGen 0 ∧ t.skey = Config.defaultStaticKeystream ∧
      t.ktabValid = false ∧ t.prg = 1 ∧ t.olen = 0 ∧ t.ilen = 0 ∧ t.status = 0x00 ∧
      t.inbox = rest ∧ t.hostData = s.hostData

/-- The state after reset meets the invariant (R22, R23, R26, R30, R31, R32). -/
def Obligations.ResetStateMeetsTheInvariant : Prop := Inv State.reset

/-- Every step from a state that meets the invariant ends in one that meets it: `SEED` is 0 to 9 and `SALT` its
table (R22, R23), a valid `KTAB` is the table of a name (R26), the result fills `SCRATCH[0 .. OLEN)` and fits (R30,
R31), `IBUF` keeps its canonical form, an error leaves no result, `BUSY` reads 0 (R32). -/
def Obligations.EveryStepKeepsTheInvariant : Prop :=
  ∀ s t : State, Inv s → step s = .next t → Inv t

/-- R228, R229: the block is always ready. In a state that meets the invariant, a host that keeps its duties is
never refused and never stopped. That `CMD` is written whole on the bus and that an index names a byte of its buffer
are duties the model adds (assumptions 11 and 13).
The queue of host moves is the model's own (assumption 1). -/
def Obligations.DutifulHostIsNeverStopped : Prop :=
  ∀ (s : State) (m : HostMove) (rest : List HostMove),
    Inv s → s.inbox = m :: rest → hostDuty m s → ∃ t, step s = .next t

/-! ### SET_SEED and the Salt Table -/

/-- R91 to R100: the ten tables, written without signed arithmetic. -/
def Obligations.SaltTablesFollowTheTenFormulas : Prop :=
  ∀ (i : Nat) (h : i < 256),
    (saltGen 0)[i].toNat = i ∧
    (saltGen 1)[i].toNat = (if i % 2 = 0 then 128 + i / 2 else 127 - i / 2) ∧
    (saltGen 2)[i].toNat = 255 - i ∧
    (saltGen 3)[i].toNat = (if i % 2 = 0 then 255 - i / 2 else 1 + i / 2) ∧
    (saltGen 4)[i].toNat = i / 16 * (i / 16) ∧
    (saltGen 5)[i].toNat = 2 * i % 256 ∧
    (saltGen 6)[i].toNat = 255 - 2 * i % 256 ∧
    (saltGen 7)[i].toNat = (if 127 < i then 2 * i - 256 else 255 - 2 * i) ∧
    (saltGen 8)[i].toNat = (if 127 < i then 511 - 2 * i else 2 * i) ∧
    (saltGen 9)[i].toNat =
      255 - (if 128 ≤ i then (i - 128) / 8 * ((i - 128) / 8) else (128 - i) / 8 * ((128 - i) / 8)) % 256

/-- R101: no formula leaves the range of a byte, so the truncation changes nothing. -/
def Obligations.SaltFormulasStayInTheRangeOfAByte : Prop :=
  ∀ (seed : Fin 10) (i : Nat) (h : i < 256),
    0 ≤ saltFormula seed i ∧ saltFormula seed i ≤ 255 ∧ ((saltGen seed)[i].toNat : Int) = saltFormula seed i

/-- R103: `SET_SEED` with a seed of 0 to 9 loads the seed and its table and touches nothing else; with a greater
seed it ends in `SEED_RANGE` and nothing changes. -/
def Obligations.SetSeedLoadsTheTableOrEndsInSeedRange : Prop :=
  ∀ (s : State) (seed : Nat),
    (∀ h : seed < 10, ∃ t, exec (.setSeed seed) s = .next t ∧ EndedWith t [] ∧
      t.seed.toNat = seed ∧ t.salt = saltGen ⟨seed, h⟩ ∧
      t.skey = s.skey ∧ t.ktab = s.ktab ∧ t.ktabValid = s.ktabValid ∧ t.prg = s.prg ∧ HostSideKept s t) ∧
    (9 < seed → ∃ t, exec (.setSeed seed) s = .next t ∧ EndedInError t .seedRange ∧
      EngineKept s t ∧ HostSideKept s t)

/-! ### SET_SKEY, GEN_KTAB and the keystreams -/

/-- R130: `SET_SKEY` loads the nine bytes; a length other than 9 ends in `KEY_LENGTH`, tested first, and nine bytes
outside the input end in `OUT_OF_RANGE`. -/
def Obligations.SetSkeyLoadsNineBytesOrReportsWhy : Prop :=
  ∀ (s : State) (offset count : Nat),
    (count = 9 → offset + 9 ≤ s.ilen.toNat → ∃ t, exec (.setSkey offset count) s = .next t ∧ EndedWith t [] ∧
      (∀ (j : Nat) (h : j < 9), t.skey[j] = s.inputByte (offset + j)) ∧
      t.seed = s.seed ∧ t.salt = s.salt ∧ t.ktab = s.ktab ∧ t.ktabValid = s.ktabValid ∧ t.prg = s.prg ∧
      HostSideKept s t) ∧
    (count ≠ 9 → ∃ t, exec (.setSkey offset count) s = .next t ∧ EndedInError t .keyLength ∧
      EngineKept s t ∧ HostSideKept s t) ∧
    (count = 9 → s.ilen.toNat < offset + 9 → ∃ t, exec (.setSkey offset count) s = .next t ∧
      EndedInError t .outOfRange ∧ EngineKept s t ∧ HostSideKept s t)

/-- R122, R127: `GEN_KTAB` fills `KTAB` with the last text of the hash chain over the name and sets `KTAB_VALID`, the
empty name at the end of the input too; a name outside the input ends in `OUT_OF_RANGE`. -/
def Obligations.GenKtabBuildsTheHashChainOrEndsOutOfRange : Prop :=
  ∀ (s : State) (offset count : Nat),
    (offset + count ≤ s.ilen.toNat → ∃ t, ∃ chain : Nat → List Byte,
      exec (.genKtab offset count) s = .next t ∧ EndedWith t [] ∧
      chain 0 = hashText (hashText (s.inputBytes offset count)) ∧
      (∀ n < 31, chain (n + 1) = chain n ++ hashText (chain n)) ∧
      t.ktab.toList = chain 31 ∧ t.ktabValid = true ∧
      t.seed = s.seed ∧ t.salt = s.salt ∧ t.skey = s.skey ∧ t.prg = s.prg ∧ HostSideKept s t) ∧
    (s.ilen.toNat < offset + count → ∃ t, exec (.genKtab offset count) s = .next t ∧
      EndedInError t .outOfRange ∧ EngineKept s t ∧ HostSideKept s t)

/-- R120, R121: the text of a digest, and of bytes in general: two lowercase hexadecimal characters a byte, the high
nibble first; the text of a byte string is that of its sixteen digest bytes. -/
def Obligations.HexTextHasTheHighNibbleFirst : Prop :=
  (∀ v < 16, (hexChar v).toNat = if v ≤ 9 then 0x30 + v else 0x61 + (v - 10)) ∧
  (∀ d : List Byte, (hex d).length = 2 * d.length ∧
    ∀ (k : Nat) (h : k < d.length),
      (hex d)[2 * k]? = some (hexChar (d[k].toNat / 16)) ∧ (hex d)[2 * k + 1]? = some (hexChar (d[k].toNat % 16))) ∧
  ∀ m : List Byte, (hashText m).length = 32 ∧
    ∀ (k : Nat) (h : k < 16),
      (hashText m)[2 * k]? = some (hexChar ((Config.h128 m)[k].toNat / 16)) ∧
      (hashText m)[2 * k + 1]? = some (hexChar ((Config.h128 m)[k].toNat % 16))

/-- R123: the table's first 32 bytes are the text of the text of the name, and each further 32 are the text of all
the bytes before them. -/
def Obligations.KeystreamTableBlocksChain : Prop :=
  ∀ (name : List Byte) (n : Nat), n < 31 →
    (ktabGen name).toList.take 32 = hashText (hashText name) ∧
    ((ktabGen name).toList.drop (32 * (n + 1))).take 32 = hashText ((ktabGen name).toList.take (32 * (n + 1)))

/-- R124: every byte of a generated table is one of the sixteen characters `0` to `9`, `a` to `f`. -/
def Obligations.KeystreamTableIsLowercaseHexText : Prop :=
  ∀ (name : List Byte), ∀ b ∈ (ktabGen name).toList,
    (0x30 ≤ b.toNat ∧ b.toNat ≤ 0x39) ∨ (0x61 ≤ b.toNat ∧ b.toNat ≤ 0x66)

/-- R135, R136: key byte `i` is the table byte at the formula's index, and only `a mod 1024` matters. -/
def Obligations.PerPacketKeyReadsTheFormulasIndices : Prop :=
  ∀ (t : Table 1024) (a b : Nat),
    (∀ (i : Nat) (h : i < 9), (pkeyDerive t a b)[i]
      = t[(i * (9 * i + b * b) + a) % 1024]'(Nat.mod_lt _ (by decide))) ∧
    pkeyDerive t (a + 1024) b = pkeyDerive t a b

/-! ### The generator -/

/-- R110: one step of the generator, on integers; 4294967296 is 2^32. -/
def Obligations.GeneratorStepIsTheCongruence : Prop :=
  ∀ p : BitVec 32,
    (prgNext p).1.toNat = (p.toNat * 0x343FD + 0x269EC3) % 4294967296 ∧
    (prgNext p).2 = (prgNext p).1.toNat / 65536 % 32768

/-- R112: the first eight states and outputs from the reset state. -/
def Obligations.GeneratorStartsWithTheListedEight : Prop :=
  (List.range 8).map (fun n => (prgStep^[n + 1] State.reset.prg).toNat) =
    [0x0029E2C0, 0xC823F683, 0x18BE873A, 0xE7847115, 0xCAE1DF84, 0x3D6C1037, 0x2CD60A1E, 0x72AE7869] ∧
  (List.range 8).map (fun n => prgOutput (prgStep^[n + 1] State.reset.prg)) =
    [41, 18467, 6334, 26500, 19169, 15724, 11478, 29358]

/-- R114: the scalars of any output, which no truncation changes. -/
def Obligations.ScalarsAreDerivedWithoutTruncation : Prop :=
  ∀ out : Nat,
    (abDerive out).1.toNat = out % 65277 + 256 ∧ (abDerive out).2.toNat = out / 65536 % 155 + 100 ∧
    (abDerive out).1.toNat ≤ 65532 ∧ (abDerive out).2.toNat ≤ 254

/-- R115: with the generator's 15-bit output, `a` is the output plus 256 and `b` is always 100. -/
def Obligations.DrawnScalarBIsAlwaysOneHundred : Prop :=
  ∀ s : State, (DrawnA s).toNat = (prgNext s.prg).2 + 256 ∧ (DrawnA s).toNat ≤ 33023 ∧ DrawnB s = 100

/-- R113: whatever the instruction and the state, the generator steps exactly once when an encrypt operation ends
without error, and not at all otherwise. -/
def Obligations.GeneratorStepsOncePerSuccessfulEncrypt : Prop :=
  ∀ (i : Instr) (s t : State), exec i s = .next t →
    t.prg = if isEncrypt i = true ∧ t.err = .none then prgStep s.prg else s.prg

/-- R113: after any sequence of commands from any state, the generator has stepped as often as encrypt operations
have ended without error. -/
def Obligations.GeneratorCountsSuccessfulEncrypts : Prop :=
  ∀ (is : List Instr) (s : State), ∃ t, execAll is s = .next t ∧ t.prg = prgStep^[encryptsDone is s] s.prg

/-! ### The transform and the trailer -/

/-- R140, R142: the transform replaces byte `off + i` of its range by itself XOR `MASK(i)` and leaves every byte
outside the range; the mask is the Salt byte of the sequence, the key byte, and the Salt byte of the position unless
its index is the sequence. -/
def Obligations.TransformXorsTheMaskInsideItsRangeOnly : Prop :=
  ∀ (buf : List Byte) (off cnt : Nat) (key : Table 9) (seq : Byte) (salt : Table 256),
    off + cnt ≤ buf.length →
      (xform buf off cnt key seq salt).length = buf.length ∧
      (∀ i < cnt, (xform buf off cnt key seq salt)[off + i]? =
        (buf[off + i]?).map fun v => v ^^^ xformMask key seq salt i) ∧
      (∀ k, k < off ∨ off + cnt ≤ k → (xform buf off cnt key seq salt)[k]? = buf[k]?) ∧
      ∀ i, xformMask key seq salt i =
        salt[seq.toNat]'seq.isLt ^^^ key[i % 9]'(Nat.mod_lt _ (by decide)) ^^^
          (if i / 9 % 256 ≠ seq.toNat then salt[i / 9 % 256]'(Nat.mod_lt _ (by decide)) else 0)

/-- R143: the transform is its own inverse. -/
def Obligations.TransformTwiceRestoresTheBuffer : Prop :=
  ∀ (buf : List Byte) (off cnt : Nat) (key : Table 9) (seq : Byte) (salt : Table 256),
    xform (xform buf off cnt key seq salt) off cnt key seq salt = buf

/-- R144: the mask repeats with period 2304, and the salt index is a byte. -/
def Obligations.MaskRepeatsEvery2304Positions : Prop :=
  ∀ (key : Table 9) (seq : Byte) (salt : Table 256) (i : Nat),
    xformMask key seq salt (i + 2304) = xformMask key seq salt i ∧ saltIndex (i + 2304) = saltIndex i

/-- R166: the trailer's bytes in both directions, the recovery of the pair, and that every three bytes are the
trailer of the pair recovered from them. -/
def Obligations.TrailerBytesAndTheirInverse : Prop :=
  (∀ (a : BitVec 16) (b : Byte),
    trailer a b 0x7470 0x23 = [a.extractLsb' 0 8 ^^^ 0x70, b ^^^ 0x23, a.extractLsb' 8 8 ^^^ 0x74] ∧
    trailer a b 0x6474 0x24 = [a.extractLsb' 0 8 ^^^ 0x74, b ^^^ 0x24, a.extractLsb' 8 8 ^^^ 0x64]) ∧
  ∀ (a xa : BitVec 16) (b xb t0 t1 t2 : Byte),
    (trailer a b xa xb = [t0, t1, t2] → untrailerA t0 t2 xa = a ∧ untrailerB t1 xb = b) ∧
    trailer (untrailerA t0 t2 xa) (untrailerB t1 xb) xa xb = [t0, t1, t2]

/-! ### The data operations -/

/-- R160: `ENC_CLIENT` on an accepted region delivers the client-direction frame, index by index, and changes no
register but `PRG`; `COUNT - 1` data bytes. The tag is `IBUF[0]` (R161). With `d` the digest of all the bytes before
it, the checksum is `d[13]`, `d[3]`, `d[11]`, `d[7]`, as that of any byte string is (R150, R151). -/
def Obligations.EncClientDeliversTheClientFrame : Prop :=
  (∀ m : List Byte, checksum m =
    [(Config.h128 m)[13], (Config.h128 m)[3], (Config.h128 m)[11], (Config.h128 m)[7]]) ∧
  ∀ (s : State) (offset count : Nat) (seq : Byte) (k2 : Bool),
    RegionAccepted s offset count 1 (count + 9 + k2.toNat) k2 →
      ∃ t frame, exec (.encClient offset count seq k2) s = .next t ∧ EndedWith t frame ∧
        frame.length = count - 1 + 10 + k2.toNat ∧
        frame[0]? = some (s.inputByte 0) ∧ frame[1]? = some seq ∧
        (let mask := xformMask (TransformKey s k2 (DrawnA s) (DrawnB s)) seq s.salt
         (∀ j < count - 1, frame[2 + j]? = some (s.inputByte (offset + 1 + j) ^^^ mask j)) ∧
         frame[count + 1]? = some (0 ^^^ mask (count - 1)) ∧
         (k2 = true → frame[count + 2]? = some (s.inputByte 0 ^^^ mask count))) ∧
        (let d := Config.h128 (frame.take (count + 2 + k2.toNat))
         frame.drop (count + 2 + k2.toNat) =
          [d[13], d[3], d[11], d[7]] ++ trailer (DrawnA s) (DrawnB s) 0x7470 0x23) ∧
        t.prg = (prgNext s.prg).1 ∧ t.seed = s.seed ∧ t.salt = s.salt ∧ t.skey = s.skey ∧ t.ktab = s.ktab ∧
        t.ktabValid = s.ktabValid ∧ HostSideKept s t

/-- R173: `ENC_SERVER` on an accepted region delivers the server-direction frame, index by index, of the same length
whatever `K2` is, and changes no register but `PRG`. -/
def Obligations.EncServerDeliversTheServerFrame : Prop :=
  ∀ (s : State) (offset count : Nat) (seq : Byte) (k2 : Bool),
    RegionAccepted s offset count 1 (count + 4) k2 →
      ∃ t frame, exec (.encServer offset count seq k2) s = .next t ∧ EndedWith t frame ∧
        frame.length = count - 1 + 5 ∧
        frame[0]? = some (s.inputByte 0) ∧ frame[1]? = some seq ∧
        (let mask := xformMask (TransformKey s k2 (DrawnA s) (DrawnB s)) seq s.salt
         ∀ j < count - 1, frame[2 + j]? = some (s.inputByte (offset + 1 + j) ^^^ mask j)) ∧
        frame.drop (count + 1) = trailer (DrawnA s) (DrawnB s) 0x6474 0x24 ∧
        t.prg = (prgNext s.prg).1 ∧ t.seed = s.seed ∧ t.salt = s.salt ∧ t.skey = s.skey ∧ t.ktab = s.ktab ∧
        t.ktabValid = s.ktabValid ∧ HostSideKept s t

/-- R170: `DEC_CLIENT` on an accepted region delivers the tag `IBUF[0]` and the deciphered data bytes, less the pad and,
with `K2 = 1`, the dup tag; the sequence byte is `IBUF[1]`; no register changes. No byte of the frame is checked. -/
def Obligations.DecClientDeliversThePayload : Prop :=
  ∀ (s : State) (offset count : Nat) (k2 : Bool),
    RegionAccepted s offset count (10 + k2.toNat) count k2 →
      ∃ t out, exec (.decClient offset count k2) s = .next t ∧ EndedWith t out ∧
        out.length = count - 9 - k2.toNat ∧ out[0]? = some (s.inputByte 0) ∧
        (let a := untrailerA (s.inputByte (offset + count - 3)) (s.inputByte (offset + count - 1)) 0x7470
         let b := untrailerB (s.inputByte (offset + count - 2)) 0x23
         let mask := xformMask (TransformKey s k2 a b) (s.inputByte 1) s.salt
         ∀ j < count - 10 - k2.toNat, out[1 + j]? = some (s.inputByte (offset + 2 + j) ^^^ mask j)) ∧
        EngineKept s t ∧ HostSideKept s t

/-- R179: `DEC_SERVER` on an accepted region delivers the tag `IBUF[0]` and all the deciphered bytes; the sequence byte
is `IBUF[1]`; no register changes. -/
def Obligations.DecServerDeliversThePayload : Prop :=
  ∀ (s : State) (offset count : Nat) (k2 : Bool),
    RegionAccepted s offset count 5 count k2 →
      ∃ t out, exec (.decServer offset count k2) s = .next t ∧ EndedWith t out ∧
        out.length = count - 4 ∧ out[0]? = some (s.inputByte 0) ∧
        (let a := untrailerA (s.inputByte (offset + count - 3)) (s.inputByte (offset + count - 1)) 0x6474
         let b := untrailerB (s.inputByte (offset + count - 2)) 0x24
         let mask := xformMask (TransformKey s k2 a b) (s.inputByte 1) s.salt
         ∀ j < count - 5, out[1 + j]? = some (s.inputByte (offset + 2 + j) ^^^ mask j)) ∧
        EngineKept s t ∧ HostSideKept s t

/-- R197: each data operation reports the first failing check, in the order range, minimum, capacity, table, and no
error when none fails (R192, R193, R194, R196). -/
def Obligations.DataOperationsReportTheFirstFailingCheck : Prop :=
  ∀ (s : State) (offset count : Nat) (seq : Byte) (k2 : Bool),
    (∃ t, exec (.encClient offset count seq k2) s = .next t ∧
      t.err = FirstFailure s offset count 1 (count + 9 + k2.toNat) k2) ∧
    (∃ t, exec (.decClient offset count k2) s = .next t ∧
      t.err = FirstFailure s offset count (10 + k2.toNat) count k2) ∧
    (∃ t, exec (.encServer offset count seq k2) s = .next t ∧
      t.err = FirstFailure s offset count 1 (count + 4) k2) ∧
    (∃ t, exec (.decServer offset count k2) s = .next t ∧ t.err = FirstFailure s offset count 5 count k2)

/-- R198: whatever the instruction, one that ends in an error changes no register of the engine and no input byte,
and leaves no result. -/
def Obligations.ErrorsLeaveTheEngineAsItWas : Prop :=
  ∀ (i : Instr) (s t : State), exec i s = .next t → t.err ≠ .none →
    EndedInError t t.err ∧ EngineKept s t ∧ HostSideKept s t ∧ ∀ k, t.scratch.read k = none

/-- R51: no instruction, ending in an error or not, writes the input buffer, its length, or anything of the host's. -/
def Obligations.NoOperationWritesTheInputBuffer : Prop :=
  ∀ (i : Instr) (s t : State), exec i s = .next t → HostSideKept s t

/-- R22, R23, R24, R25, R26: each configuration register is written only by its own operation when it ends without
error, and `KTAB_VALID` is never cleared by an operation. -/
def Obligations.ConfigurationChangesOnlyByItsOperation : Prop :=
  ∀ (i : Instr) (s t : State), exec i s = .next t →
    ((∀ seed, i ≠ .setSeed seed) → t.seed = s.seed ∧ t.salt = s.salt) ∧
    ((∀ o c, i ≠ .setSkey o c) → t.skey = s.skey) ∧
    ((∀ o c, i ≠ .genKtab o c) → t.ktab = s.ktab ∧ t.ktabValid = s.ktabValid) ∧
    (s.ktabValid = true → t.ktabValid = true) ∧
    (t.err ≠ .none → EngineKept s t)

/-- R113, R170, R179: the generator's state is invisible to every operation but an encrypt: with another `PRG` the
operation does the same and leaves that `PRG`. -/
def Obligations.OnlyEncryptReadsTheGenerator : Prop :=
  ∀ (i : Instr) (s t : State) (p : BitVec 32), isEncrypt i = false → exec i s = .next t →
    exec i (s.setPrg p) = .next (t.setPrg p)

/-- R163: with `K2 = 0` a data operation does not depend on `KTAB` or `KTAB_VALID`, and with `K2 = 1` it does not depend
on `SKEY`. -/
def Obligations.DataOperationUsesOnlyTheSelectedKeystream : Prop :=
  ∀ (i : Instr) (s t : State), exec i s = .next t →
    (IsDataOp i false → ∀ (table : Table 1024) (valid : Bool),
      exec i { s with ktab := table, ktabValid := valid } = .next { t with ktab := table, ktabValid := valid }) ∧
    (IsDataOp i true → ∀ key : Table 9, exec i (s.setSkey key) = .next (t.setSkey key))

/-- R152: two input buffers that differ only in the four checksum bytes of a client frame decrypt alike: the checksum is
neither read nor verified. -/
def Obligations.DecClientNeverReadsTheChecksum : Prop :=
  ∀ (s : State) (m : Memory) (offset count : Nat) (k2 : Bool),
    (∀ k, k < offset + count - 7 ∨ offset + count - 3 ≤ k → (s.setIbuf m).inputByte k = s.inputByte k) →
      ∀ t, exec (.decClient offset count k2) s = .next t →
        ∃ t', exec (.decClient offset count k2) (s.setIbuf m) = .next t' ∧
          t'.err = t.err ∧ t'.resultBytes = t.resultBytes

/-- R161: with `OFFSET = 0` every data operation does the same under both values of `HDR_BASE`. -/
def Obligations.HeaderBasesAgreeAtOffsetZero : Prop :=
  ∀ (s : State) (base : Config.HdrBase) (count : Nat) (seq : Byte) (k2 : Bool),
    encClientAt base 0 count seq k2 s = exec (.encClient 0 count seq k2) s ∧
    decClientAt base 0 count k2 s = exec (.decClient 0 count k2) s ∧
    encServerAt base 0 count seq k2 s = exec (.encServer 0 count seq k2) s ∧
    decServerAt base 0 count k2 s = exec (.decServer 0 count k2) s

/-! ### The round trips -/

/-- R180: a payload encrypted by one engine and decrypted by another with the same tables and keys comes back, for
every payload length the capacity admits, both values of `K2` and any two generator states. -/
def Obligations.ClientRoundTripReturnsThePayload : Prop :=
  ∀ (s1 s2 t1 : State) (seq : Byte) (k2 : Bool) (frame : List Byte),
    SameKeys s1 s2 k2 → 1 ≤ s1.ilen.toNat → s1.ilen.toNat ≤ 65523 - k2.toNat →
    exec (.encClient 0 s1.ilen.toNat seq k2) s1 = .next t1 → t1.resultBytes = some frame → InputIs s2 frame →
      t1.err = .none ∧ frame.length = s1.ilen.toNat + 9 + k2.toNat ∧
      ∃ t2, exec (.decClient 0 (s1.ilen.toNat + 9 + k2.toNat) k2) s2 = .next t2 ∧
        EndedWith t2 (s1.inputBytes 0 s1.ilen.toNat)

/-- R181: the same in the server direction. -/
def Obligations.ServerRoundTripReturnsThePayload : Prop :=
  ∀ (s1 s2 t1 : State) (seq : Byte) (k2 : Bool) (frame : List Byte),
    SameKeys s1 s2 k2 → 1 ≤ s1.ilen.toNat → s1.ilen.toNat ≤ 65528 →
    exec (.encServer 0 s1.ilen.toNat seq k2) s1 = .next t1 → t1.resultBytes = some frame → InputIs s2 frame →
      t1.err = .none ∧ frame.length = s1.ilen.toNat + 4 ∧
      ∃ t2, exec (.decServer 0 (s1.ilen.toNat + 4) k2) s2 = .next t2 ∧
        EndedWith t2 (s1.inputBytes 0 s1.ilen.toNat)

/-- R182: a region encrypted at any `OFFSET` comes back with its first byte replaced by `IBUF[0]`, in both
directions. -/
def Obligations.RoundTripOfARegionReplacesItsFirstByte : Prop :=
  ∀ (s1 s2 t1 : State) (offset count : Nat) (seq : Byte) (k2 : Bool) (frame : List Byte),
    SameKeys s1 s2 k2 → t1.resultBytes = some frame → InputIs s2 frame →
      (RegionAccepted s1 offset count 1 (count + 9 + k2.toNat) k2 →
        exec (.encClient offset count seq k2) s1 = .next t1 →
          ∃ t2, exec (.decClient 0 (count + 9 + k2.toNat) k2) s2 = .next t2 ∧
            EndedWith t2 (s1.inputByte 0 :: s1.inputBytes (offset + 1) (count - 1))) ∧
      (RegionAccepted s1 offset count 1 (count + 4) k2 →
        exec (.encServer offset count seq k2) s1 = .next t1 →
          ∃ t2, exec (.decServer 0 (count + 4) k2) s2 = .next t2 ∧
            EndedWith t2 (s1.inputByte 0 :: s1.inputBytes (offset + 1) (count - 1)))

/-- R180 through the machine's own steps, as in program 1 of 95_test_vectors.md: the host writes an encrypt command,
copies the result to the input buffer and writes the decrypt command; the third step leaves the payload, and the
generator has stepped once. The copy is one move (R77, assumption 15).
The queue of host moves is the model's own (assumption 1). -/
def Obligations.ThreeHostMovesRoundTripTheInput : Prop :=
  ∀ (s : State) (seq : Byte) (k2 : Bool) (rest : List HostMove),
    s.busy = false → 1 ≤ s.ilen.toNat → s.ilen.toNat ≤ 65523 - k2.toNat → (k2 = true → s.ktabValid = true) →
    s.inbox = .command (encode (.encClient 0 s.ilen.toNat seq k2)) :: .ibufFromResult ::
      .command (encode (.decClient 0 (s.ilen.toNat + 9 + k2.toNat) k2)) :: rest →
      ∃ t : State, Host.Core.run Sys2Proof.core 3 s = .next t ∧ EndedWith t (s.inputBytes 0 s.ilen.toNat) ∧
        t.prg = prgStep s.prg ∧ t.inbox = rest

/-! ### The host interface -/

/-- R32: the bits of `STATUS`; R190: the eight numbers its field `ERR` can hold. -/
def Obligations.StatusShowsItsFields : Prop :=
  (ErrCode.none.code = 0 ∧ ErrCode.seedRange.code = 1 ∧ ErrCode.keyLength.code = 2 ∧ ErrCode.outOfRange.code = 3 ∧
    ErrCode.countTooSmall.code = 4 ∧ ErrCode.capacity.code = 5 ∧ ErrCode.ktabNotReady.code = 6 ∧
    ErrCode.illegalCommand.code = 7) ∧
  ∀ s : State, s.status.getLsbD 0 = s.busy ∧ s.status.getLsbD 1 = s.done ∧ s.status.getLsbD 2 = s.ktabValid ∧
    s.status.getLsbD 3 = false ∧ s.status.extractLsb' 4 4 = s.err.code

/-- R34: what the host reads from and writes to each register number, the reserved numbers too; a read changes nothing
else, and a write to a read-only or reserved number has no effect.
The queue of host moves is the model's own (assumption 1). -/
def Obligations.RegistersReadAndWriteAsListed : Prop :=
  ∀ (s : State) (n : Nat) (v : BitVec 64) (rest : List HostMove),
    (s.inbox = .readReg n :: rest →
      step s = .next ((s.popped rest).answer
        (if n = 1 then s.status.zeroExtend 64 else if n = 2 then s.ilen.zeroExtend 64
         else if n = 3 then s.olen.zeroExtend 64 else if n = 4 then s.seed.zeroExtend 64 else 0))) ∧
    (s.inbox = .writeReg n v :: rest → n ≠ 0 → n ≠ 2 → step s = .next (s.popped rest)) ∧
    (s.inbox = .writeReg 2 v :: rest → s.busy = false →
      step s = .next ((s.popped rest).setIlen (v.extractLsb' 0 16))) ∧
    (s.inbox = .writeReg 0 v :: rest → step s = step { s with inbox := .command v :: rest })

/-- R53: after an operation that ended without error a window read below `OLEN` returns the result's byte; any other
read of the window is refused; a write of any of its indices has no effect.
The queue of host moves is the model's own (assumption 1). -/
def Obligations.ResultWindowShowsTheResultOnly : Prop :=
  ∀ (s : State) (k : Nat) (rest : List HostMove), k < 65532 →
    (s.inbox = .readResult k :: rest →
      (∀ r v, s.done = true → s.err = .none → s.resultBytes = some r → r[k]? = some v →
        step s = .next ((s.popped rest).answer (v.zeroExtend 64))) ∧
      (s.done = false ∨ s.err ≠ .none ∨ s.olen.toNat ≤ k → step s = .refused (.unspecifiedResult k))) ∧
    (∀ v, s.inbox = .writeResult k v :: rest → step s = .next (s.popped rest))

/-- R56: a byte read on the host bus: the registers little-endian at `8 * n`, the input buffer, the result window as
the window itself, and 0 everywhere else.
The queue of host moves is the model's own (assumption 1). -/
def Obligations.BusReadsFollowTheAddressMap : Prop :=
  ∀ (s : State) (addr : Nat) (rest : List HostMove), s.inbox = .busRead addr :: rest →
    (∀ n j, n < 5 → j < 8 → addr = 8 * n + j →
      step s = .next ((s.popped rest).answer (((s.regValue n) >>> (8 * j)) &&& 0xFF))) ∧
    (∀ k < 65535, addr = 0x10000 + k →
      step s = .next ((s.popped rest).answer ((s.inputByte k).zeroExtend 64))) ∧
    (∀ k < 65532, addr = 0x20000 + k → step s = step { s with inbox := .readResult k :: rest }) ∧
    ((0x28 ≤ addr ∧ addr < 0x10000) ∨ addr = 0x1FFFF ∨ 0x2FFFC ≤ addr →
      step s = .next ((s.popped rest).answer 0))

/-- R54, R56: on the host bus a write of the eight bytes of a word, the least significant first, to address 0 is the
write of that word to `CMD`; a byte in the input window writes that input byte; while the block is idle a byte at 0x10
or 0x11 replaces the low or the high byte of `ILEN`. A byte in 0x12 to 0x17, the unused part of `ILEN`, has no effect
(assumption 12), nor has one at a read-only register, a reserved address or the result window. One byte in 0 to 7 is
refused (assumption 11), and a longer write from 8 on is the writes of its bytes at rising addresses (assumption 12).
The queue of host moves is the model's own (assumption 1). -/
def Obligations.BusWritesFollowTheAddressMap : Prop :=
  ∀ (s : State) (rest : List HostMove) (w : BitVec 64) (v : Byte) (k addr : Nat),
    (s.inbox = .busWrite 0 (bytesOfWord w) :: rest → step s = step { s with inbox := .command w :: rest }) ∧
    (s.inbox = .busWrite (0x10000 + k) [v] :: rest → k < 65535 →
      step s = step { s with inbox := .writeIbuf k v :: rest }) ∧
    (s.inbox = .busWrite 0x10 [v] :: rest → s.busy = false →
      ∃ n : BitVec 16, step s = .next ((s.popped rest).setIlen n) ∧
        n.toNat = s.ilen.toNat / 256 * 256 + v.toNat) ∧
    (s.inbox = .busWrite 0x11 [v] :: rest → s.busy = false →
      ∃ n : BitVec 16, step s = .next ((s.popped rest).setIlen n) ∧
        n.toNat = v.toNat * 256 + s.ilen.toNat % 256) ∧
    (s.inbox = .busWrite addr [v] :: rest →
      (8 ≤ addr ∧ addr < 0x10) ∨ (0x12 ≤ addr ∧ addr < 0x10000) ∨ 0x1FFFF ≤ addr →
        step s = .next (s.popped rest)) ∧
    (s.inbox = .busWrite addr [v] :: rest → addr < 8 → step s = .refused .partialCommandWrite) ∧
    (∀ (bs : List Byte) (t : State), 8 ≤ addr →
      step { s with inbox := .busWrite addr [v] :: rest } = .next t →
        step { s with inbox := .busWrite addr (v :: bs) :: rest } =
          step { t with inbox := .busWrite (addr + 1) bs :: rest })

/-- R29, R60: an input byte the host writes while the block is idle is the byte an operation then reads, and every
other input byte and the whole engine stay as they were. The host too reads the byte the operation reads (R56), in
every state, and the read changes nothing else. R77: on an idle block the directives `.ibuf`, of bytes that fit, and
`.ibuf_from_result`, where there is a result, replace `IBUF[0 .. n)` and `ILEN` and change nothing else; bytes that do
not fit end in a fault (assumption 13), and a copy of a result that is not there is refused (assumption 15). R228: a
move that is neither a command nor a reset, in whatever state, writes nothing that the host cannot write directly.
The queue of host moves is the model's own (assumption 1), and a directive is one move (assumption 15). -/
def Obligations.InputByteWrittenIsTheByteRead : Prop :=
  ∀ (s : State) (rest : List HostMove),
    (∀ (k : Nat) (v : Byte), k < 65535 →
      (s.inbox = .writeIbuf k v :: rest → s.busy = false →
        ∃ t, step s = .next t ∧ t.inputByte k = v ∧ (∀ j, j ≠ k → t.inputByte j = s.inputByte j) ∧
          t.ilen = s.ilen ∧ NotHostWritableKept s t ∧ t.inbox = rest ∧ t.hostData = s.hostData) ∧
      (s.inbox = .readIbuf k :: rest →
        step s = .next ((s.popped rest).answer ((s.inputByte k).zeroExtend 64)))) ∧
    (∀ bytes : List Byte, s.inbox = .loadIbuf bytes :: rest →
      (bytes.length ≤ 65535 → s.busy = false →
        ∃ t, step s = .next t ∧ InputReplaced s t bytes ∧ NotHostWritableKept s t ∧ t.inbox = rest ∧
          t.hostData = s.hostData) ∧
      (65535 < bytes.length → step s = .fault (.outsideBuffer .ibuf 65535))) ∧
    (s.inbox = .ibufFromResult :: rest →
      (∀ r, s.resultBytes = some r → s.busy = false →
        ∃ t, step s = .next t ∧ InputReplaced s t r ∧ NotHostWritableKept s t ∧ t.inbox = rest ∧
          t.hostData = s.hostData) ∧
      (s.resultBytes = none → step s = .refused (.unspecifiedResult 0))) ∧
    ∀ (m : HostMove) (t : State), s.inbox = m :: rest → isCommand m = false → m ≠ .reset → step s = .next t →
      NotHostWritableKept s t ∧ t.inbox = rest

/-- R77, R216: the moves of `CONSTRUCT` from any state leave the seed, its table, the nine key bytes and the generator
at 1.
The queue of host moves is the model's own (assumption 1). -/
def Obligations.ConstructionSetsSeedKeyAndGenerator : Prop :=
  ∀ (s : State) (seed : Nat) (key : List Byte) (rest : List HostMove) (h : seed < 10),
    key.length = 9 → s.inbox = constructMoves seed key ++ rest →
      ∃ t : State, Host.Core.run Sys2Proof.core 4 s = .next t ∧ t.seed.toNat = seed ∧ t.salt = saltGen ⟨seed, h⟩ ∧
        t.skey.toList = key ∧ t.prg = 1 ∧ t.ktabValid = false ∧ EndedWith t [] ∧ t.inbox = rest

/-! ### The run -/

/-- R229: the outcome of a run of host moves from reset, wherever none of them is refused or stopped: the run has ended,
the registers are those of its last state, and there is one observation for each command, in the order of the commands,
which is the `ERR`, the `OLEN` and, when `ERR = 0`, the result bytes of the state in which the step that performs the
command has reached `DONE = 1`.
The queue of host moves is the model's own (assumption 1), and one step is one whole operation (assumption 17). -/
def Obligations.RunOutcomeObservesEveryCommand : Prop :=
  ∀ (moves : List HostMove) (o : RunOutcome), runOutcome moves = .next o →
    (∃ t : State, Host.Core.run Sys2Proof.core moves.length (runStart moves) = .next t ∧ runEnded t ∧
      o.status = t.status ∧ o.ilen = t.ilen ∧ o.olen = t.olen ∧ o.seed = t.seed) ∧
    o.commands.length = moves.countP isCommand ∧
    ∀ (before after : List HostMove) (m : HostMove), moves = before ++ m :: after → isCommand m = true →
      ∃ u : State, Host.Core.run Sys2Proof.core (before.length + 1) (runStart moves) = .next u ∧
        u.busy = false ∧ u.done = true ∧
        ∃ seen, o.commands[before.countP isCommand]? = some seen ∧ seen.err = u.err ∧ seen.olen = u.olen ∧
          (u.err = .none → seen.result = u.resultBytes) ∧ (u.err ≠ .none → seen.result = none)

/-- R229: "it is always ready for another command". Every run whose moves load an input that fits, or write any word at
all to `CMD`, has an outcome, with one observation for each of the words.
The queue of host moves is the model's own (assumption 1), and an input is loaded by one move (assumption 15). -/
def Obligations.EveryRunOfInputsAndCommandsHasAnOutcome : Prop :=
  ∀ moves : List HostMove,
    (∀ m ∈ moves, (∃ w, m = .command w) ∨ ∃ bytes : List Byte, bytes.length ≤ 65535 ∧ m = .loadIbuf bytes) →
      ∃ o, runOutcome moves = .next o ∧ o.commands.length = moves.countP isCommand
end

