-- ==== Sys2Proof/Laws/Memory.lean ====
section
/-! SUPPORT. The laws of a buffer: a read after a write, and the canonical form is kept by every operation. -/

namespace Sys2Proof.Machine

/-- A read of the byte just written gives the value written. -/
@[simp] theorem Memory.read_write_same (m : Memory) (k : Nat) (v : Byte) :
    (Memory.write m k v).read k = some v := by
  induction m with
  | nil => simp [Memory.write, Memory.read]
  | cons c m ih =>
    obtain ⟨i, u⟩ := c
    simp only [Memory.write]
    split
    · simp [Memory.read]
    · split
      · simp [Memory.read]
      · simp [Memory.read, *]

/-- A write leaves every other byte as it was. -/
theorem Memory.read_write_other (m : Memory) {j k : Nat} (v : Byte) (h : j ≠ k) :
    (Memory.write m k v).read j = m.read j := by
  induction m with
  | nil => simp [Memory.write, Memory.read, h]
  | cons c m ih =>
    obtain ⟨i, u⟩ := c
    simp only [Memory.write]
    split
    · simp [Memory.read, h]
    · split
      · simp_all [Memory.read]
      · simp [Memory.read, ih]

/-- A read after a write of one byte. -/
theorem Memory.read_write (m : Memory) (j k : Nat) (v : Byte) :
    (Memory.write m k v).read j = if j = k then some v else m.read j := by
  split
  · simp_all
  · exact Memory.read_write_other m v ‹_›

/-- A listed index of a written buffer is the written one or was listed. -/
theorem Memory.mem_write {m : Memory} {k : Nat} {v : Byte} {c : Host.Cell}
    (h : c ∈ Memory.write m k v) : c.1 = k ∨ c ∈ m := by
  induction m with
  | nil => simp [Memory.write] at h; simp [h]
  | cons d m ih =>
    obtain ⟨i, u⟩ := d
    simp only [Memory.write] at h
    split at h
    · rcases List.mem_cons.mp h with rfl | h
      · exact .inl rfl
      · exact .inr h
    · split at h
      · rcases List.mem_cons.mp h with rfl | h
        · exact .inl rfl
        · exact .inr (List.mem_cons_of_mem _ h)
      · rcases List.mem_cons.mp h with rfl | h
        · exact .inr List.mem_cons_self
        · exact (ih h).imp id (List.mem_cons_of_mem _)

/-- A write inside the buffer keeps the canonical form. -/
theorem Memory.write_wf {cap : Nat} {m : Memory} {k : Nat} (v : Byte) (hm : m.wf cap) (hk : k < cap) :
    (Memory.write m k v).wf cap := by
  refine ⟨?_, fun c hc => ?_⟩
  · have hp := hm.1
    clear hm
    induction m with
    | nil => simp [Memory.write]
    | cons d m ih =>
      obtain ⟨i, u⟩ := d
      have hd := List.pairwise_cons.mp hp
      simp only [Memory.write]
      split
      · refine List.pairwise_cons.mpr ⟨fun c hc => ?_, hp⟩
        rcases List.mem_cons.mp hc with rfl | hc
        · assumption
        · have := hd.1 c hc; simp only at this ⊢; omega
      · split
        · subst_vars; exact List.pairwise_cons.mpr ⟨fun c hc => hd.1 c hc, hd.2⟩
        · refine List.pairwise_cons.mpr ⟨fun c hc => ?_, ih hd.2⟩
          rcases Memory.mem_write hc with h | h
          · simp only [h]; omega
          · exact hd.1 c h
  · rcases Memory.mem_write hc with h | h
    · omega
    · exact hm.2 c h

/-- Writing bytes inside the buffer keeps the canonical form. -/
theorem Memory.writeBytes_wf {cap : Nat} {m : Memory} {base : Nat} (bs : List Byte) (hm : m.wf cap)
    (hb : base + bs.length ≤ cap) : (Memory.writeBytes m base bs).wf cap := by
  induction bs generalizing m base with
  | nil => exact hm
  | cons b bs ih =>
    simp only [List.length_cons] at hb
    exact ih (Memory.write_wf b hm (by omega)) (by omega)

/-- A read after writing bytes. -/
theorem Memory.read_writeBytes (m : Memory) (base k : Nat) (bs : List Byte) :
    (Memory.writeBytes m base bs).read k
      = if base ≤ k ∧ k < base + bs.length then bs[k - base]? else m.read k := by
  induction bs generalizing m base with
  | nil => simp only [Memory.writeBytes, List.length_nil]; split <;> [omega; rfl]
  | cons b bs ih =>
    simp only [Memory.writeBytes, ih, Memory.read_write, List.length_cons]
    by_cases hk : k = base
    · subst hk; simp
    · by_cases h : base + 1 ≤ k ∧ k < base + 1 + bs.length
      · have h' : base ≤ k ∧ k < base + (bs.length + 1) := by omega
        have hs : k - base = (k - (base + 1)) + 1 := by omega
        simp only [h, h', and_self, if_true, hs, List.getElem?_cons_succ]
      · have h' : ¬(base ≤ k ∧ k < base + (bs.length + 1)) := by omega
        rw [if_neg h, if_neg h', if_neg hk]

/-- The listed indices of a buffer made of bytes. -/
theorem Memory.ofBytes_indices (base : Nat) (bs : List Byte) :
    (Memory.ofBytes base bs).map Prod.fst = List.range' base bs.length := by
  induction bs generalizing base with
  | nil => rfl
  | cons b bs ih => simp [Memory.ofBytes, ih, List.range'_succ]

/-- A buffer made of bytes is in canonical form when they fit. -/
theorem Memory.ofBytes_wf {cap base : Nat} {bs : List Byte} (h : base + bs.length ≤ cap) :
    (Memory.ofBytes base bs).wf cap := by
  refine ⟨?_, fun c hc => ?_⟩
  · rw [← List.pairwise_map (f := Prod.fst) (R := (· < ·)), Memory.ofBytes_indices]
    exact List.pairwise_lt_range'
  · have := List.mem_map_of_mem (f := Prod.fst) hc
    rw [Memory.ofBytes_indices, List.mem_range'_1] at this
    omega

/-- A read of a buffer made of bytes. -/
theorem Memory.read_ofBytes (base k : Nat) (bs : List Byte) :
    (Memory.ofBytes base bs).read k = if base ≤ k then bs[k - base]? else none := by
  induction bs generalizing base with
  | nil => simp [Memory.ofBytes, Memory.read]
  | cons b bs ih =>
    simp only [Memory.ofBytes, Memory.read, ih]
    by_cases hk : k = base
    · subst hk; simp
    · by_cases h : base + 1 ≤ k
      · have hs : k - base = (k - (base + 1)) + 1 := by omega
        simp only [hk, h, if_true, if_false, hs, List.getElem?_cons_succ, show base ≤ k by omega]
      · simp [hk, h, show ¬ base ≤ k by omega]

/-- The buffers of the state after reset are in canonical form. -/
theorem State.reset_buffers_wf :
    State.reset.ibuf.wf Config.ibufCap ∧ State.reset.scratch.wf Config.scratchCap := by
  simp [State.reset, State.afterReset, Memory.wf]

/-- Reading bytes depends on the reads of their indices alone. -/
theorem Memory.readBytes_eq_some {m : Memory} {base : Nat} {bs : List Byte}
    (h : ∀ j < bs.length, m.read (base + j) = bs[j]?) : m.readBytes base bs.length = some bs := by
  induction bs generalizing base with
  | nil => rfl
  | cons b bs ih =>
    have h0 := h 0 (by simp)
    have ih' := ih (base := base + 1) fun j hj => by
      have := h (j + 1) (by simpa using hj)
      simpa [Nat.add_assoc, Nat.add_comm 1 j] using this
    simp only [List.length_cons, Memory.readBytes, ih']
    simp at h0
    simp [h0]

/-- A buffer made of bytes reads back as them. -/
@[simp] theorem Memory.readBytes_ofBytes (base : Nat) (bs : List Byte) :
    (Memory.ofBytes base bs).readBytes base bs.length = some bs :=
  Memory.readBytes_eq_some fun j _ => by simp [Memory.read_ofBytes]

/-- A read of a listed index gives a value. -/
theorem Memory.read_of_listed {m : Memory} {k : Nat} (h : k ∈ m.map Prod.fst) : ∃ v, m.read k = some v := by
  induction m with
  | nil => simp at h
  | cons c m ih =>
    obtain ⟨i, u⟩ := c
    by_cases hk : k = i
    · exact ⟨u, by simp [Memory.read, hk]⟩
    · simp only [List.map_cons, List.mem_cons, hk, false_or] at h
      simpa [Memory.read, hk] using ih h

/-- The bytes at listed indices read as bytes, as many as asked for. -/
theorem Memory.readBytes_of_listed {m : Memory} {base n : Nat}
    (h : ∀ j < n, base + j ∈ m.map Prod.fst) : ∃ bs, m.readBytes base n = some bs ∧ bs.length = n := by
  induction n generalizing base with
  | zero => exact ⟨[], rfl, rfl⟩
  | succ n ih =>
    obtain ⟨v, hv⟩ := Memory.read_of_listed (h 0 (by omega))
    obtain ⟨bs, hbs, hl⟩ := ih (base := base + 1) fun j hj => by
      simpa [Nat.add_assoc, Nat.add_comm 1 j] using h (j + 1) (by omega)
    exact ⟨v :: bs, by simp at hv; simp [Memory.readBytes, hv, hbs], by simp [hl]⟩

/-- Bytes that can be read are as many as asked for, and each is the byte at its index. -/
theorem Memory.readBytes_some {m : Memory} {n base : Nat} {r : List Byte} (h : m.readBytes base n = some r) :
    r.length = n ∧ ∀ j < n, m.read (base + j) = r[j]? := by
  induction n generalizing base r with
  | zero => simp [Memory.readBytes] at h; subst h; simp
  | succ n ih =>
    simp only [Memory.readBytes, Option.bind_eq_some_iff, Option.map_eq_some_iff] at h
    obtain ⟨v, hv, q, hq, rfl⟩ := h
    obtain ⟨hl, hh⟩ := ih hq
    refine ⟨by simp [hl], fun j hj => ?_⟩
    cases j with
    | zero => simpa using hv
    | succ j =>
      have := hh j (by omega)
      rw [List.getElem?_cons_succ, ← this]
      congr 1
      omega

end Sys2Proof.Machine
end

