-- ==== Sys2Proof/Laws/State.lean ====
section
/-! SUPPORT. The value of each field of the state after each update, so that no proof unfolds an update. -/

namespace Sys2Proof.Machine

/-! ### `State.setSalt` -/

@[simp] theorem State.setSalt_seed (s : State) (n : BitVec 4) (t : Table 256) : (s.setSalt n t).seed = n := rfl
@[simp] theorem State.setSalt_salt (s : State) (n : BitVec 4) (t : Table 256) : (s.setSalt n t).salt = t := rfl
@[simp] theorem State.setSalt_skey (s : State) (n : BitVec 4) (t : Table 256) : (s.setSalt n t).skey = s.skey := rfl
@[simp] theorem State.setSalt_ktab (s : State) (n : BitVec 4) (t : Table 256) : (s.setSalt n t).ktab = s.ktab := rfl
@[simp] theorem State.setSalt_ktabValid (s : State) (n : BitVec 4) (t : Table 256) : (s.setSalt n t).ktabValid = s.ktabValid := rfl
@[simp] theorem State.setSalt_pkey (s : State) (n : BitVec 4) (t : Table 256) : (s.setSalt n t).pkey = s.pkey := rfl
@[simp] theorem State.setSalt_prg (s : State) (n : BitVec 4) (t : Table 256) : (s.setSalt n t).prg = s.prg := rfl
@[simp] theorem State.setSalt_scratch (s : State) (n : BitVec 4) (t : Table 256) : (s.setSalt n t).scratch = s.scratch := rfl
@[simp] theorem State.setSalt_olen (s : State) (n : BitVec 4) (t : Table 256) : (s.setSalt n t).olen = s.olen := rfl
@[simp] theorem State.setSalt_ibuf (s : State) (n : BitVec 4) (t : Table 256) : (s.setSalt n t).ibuf = s.ibuf := rfl
@[simp] theorem State.setSalt_ilen (s : State) (n : BitVec 4) (t : Table 256) : (s.setSalt n t).ilen = s.ilen := rfl
@[simp] theorem State.setSalt_busy (s : State) (n : BitVec 4) (t : Table 256) : (s.setSalt n t).busy = s.busy := rfl
@[simp] theorem State.setSalt_done (s : State) (n : BitVec 4) (t : Table 256) : (s.setSalt n t).done = s.done := rfl
@[simp] theorem State.setSalt_err (s : State) (n : BitVec 4) (t : Table 256) : (s.setSalt n t).err = s.err := rfl
@[simp] theorem State.setSalt_inbox (s : State) (n : BitVec 4) (t : Table 256) : (s.setSalt n t).inbox = s.inbox := rfl
@[simp] theorem State.setSalt_hostData (s : State) (n : BitVec 4) (t : Table 256) : (s.setSalt n t).hostData = s.hostData := rfl
@[simp] theorem State.setSalt_freeCount (s : State) (n : BitVec 4) (t : Table 256) : (s.setSalt n t).freeCount = s.freeCount := rfl
@[simp] theorem State.setSalt_ibufFree (s : State) (n : BitVec 4) (t : Table 256) : (s.setSalt n t).ibufFree = s.ibufFree := rfl

/-! ### `State.setSkey` -/

@[simp] theorem State.setSkey_seed (s : State) (k : Table 9) : (s.setSkey k).seed = s.seed := rfl
@[simp] theorem State.setSkey_salt (s : State) (k : Table 9) : (s.setSkey k).salt = s.salt := rfl
@[simp] theorem State.setSkey_skey (s : State) (k : Table 9) : (s.setSkey k).skey = k := rfl
@[simp] theorem State.setSkey_ktab (s : State) (k : Table 9) : (s.setSkey k).ktab = s.ktab := rfl
@[simp] theorem State.setSkey_ktabValid (s : State) (k : Table 9) : (s.setSkey k).ktabValid = s.ktabValid := rfl
@[simp] theorem State.setSkey_pkey (s : State) (k : Table 9) : (s.setSkey k).pkey = s.pkey := rfl
@[simp] theorem State.setSkey_prg (s : State) (k : Table 9) : (s.setSkey k).prg = s.prg := rfl
@[simp] theorem State.setSkey_scratch (s : State) (k : Table 9) : (s.setSkey k).scratch = s.scratch := rfl
@[simp] theorem State.setSkey_olen (s : State) (k : Table 9) : (s.setSkey k).olen = s.olen := rfl
@[simp] theorem State.setSkey_ibuf (s : State) (k : Table 9) : (s.setSkey k).ibuf = s.ibuf := rfl
@[simp] theorem State.setSkey_ilen (s : State) (k : Table 9) : (s.setSkey k).ilen = s.ilen := rfl
@[simp] theorem State.setSkey_busy (s : State) (k : Table 9) : (s.setSkey k).busy = s.busy := rfl
@[simp] theorem State.setSkey_done (s : State) (k : Table 9) : (s.setSkey k).done = s.done := rfl
@[simp] theorem State.setSkey_err (s : State) (k : Table 9) : (s.setSkey k).err = s.err := rfl
@[simp] theorem State.setSkey_inbox (s : State) (k : Table 9) : (s.setSkey k).inbox = s.inbox := rfl
@[simp] theorem State.setSkey_hostData (s : State) (k : Table 9) : (s.setSkey k).hostData = s.hostData := rfl
@[simp] theorem State.setSkey_freeCount (s : State) (k : Table 9) : (s.setSkey k).freeCount = s.freeCount := rfl
@[simp] theorem State.setSkey_ibufFree (s : State) (k : Table 9) : (s.setSkey k).ibufFree = s.ibufFree := rfl

/-! ### `State.setKtab` -/

@[simp] theorem State.setKtab_seed (s : State) (t : Table 1024) : (s.setKtab t).seed = s.seed := rfl
@[simp] theorem State.setKtab_salt (s : State) (t : Table 1024) : (s.setKtab t).salt = s.salt := rfl
@[simp] theorem State.setKtab_skey (s : State) (t : Table 1024) : (s.setKtab t).skey = s.skey := rfl
@[simp] theorem State.setKtab_ktab (s : State) (t : Table 1024) : (s.setKtab t).ktab = t := rfl
@[simp] theorem State.setKtab_ktabValid (s : State) (t : Table 1024) : (s.setKtab t).ktabValid = true := rfl
@[simp] theorem State.setKtab_pkey (s : State) (t : Table 1024) : (s.setKtab t).pkey = s.pkey := rfl
@[simp] theorem State.setKtab_prg (s : State) (t : Table 1024) : (s.setKtab t).prg = s.prg := rfl
@[simp] theorem State.setKtab_scratch (s : State) (t : Table 1024) : (s.setKtab t).scratch = s.scratch := rfl
@[simp] theorem State.setKtab_olen (s : State) (t : Table 1024) : (s.setKtab t).olen = s.olen := rfl
@[simp] theorem State.setKtab_ibuf (s : State) (t : Table 1024) : (s.setKtab t).ibuf = s.ibuf := rfl
@[simp] theorem State.setKtab_ilen (s : State) (t : Table 1024) : (s.setKtab t).ilen = s.ilen := rfl
@[simp] theorem State.setKtab_busy (s : State) (t : Table 1024) : (s.setKtab t).busy = s.busy := rfl
@[simp] theorem State.setKtab_done (s : State) (t : Table 1024) : (s.setKtab t).done = s.done := rfl
@[simp] theorem State.setKtab_err (s : State) (t : Table 1024) : (s.setKtab t).err = s.err := rfl
@[simp] theorem State.setKtab_inbox (s : State) (t : Table 1024) : (s.setKtab t).inbox = s.inbox := rfl
@[simp] theorem State.setKtab_hostData (s : State) (t : Table 1024) : (s.setKtab t).hostData = s.hostData := rfl
@[simp] theorem State.setKtab_freeCount (s : State) (t : Table 1024) : (s.setKtab t).freeCount = s.freeCount := rfl
@[simp] theorem State.setKtab_ibufFree (s : State) (t : Table 1024) : (s.setKtab t).ibufFree = s.ibufFree := rfl

/-! ### `State.setPrg` -/

@[simp] theorem State.setPrg_seed (s : State) (p : BitVec 32) : (s.setPrg p).seed = s.seed := rfl
@[simp] theorem State.setPrg_salt (s : State) (p : BitVec 32) : (s.setPrg p).salt = s.salt := rfl
@[simp] theorem State.setPrg_skey (s : State) (p : BitVec 32) : (s.setPrg p).skey = s.skey := rfl
@[simp] theorem State.setPrg_ktab (s : State) (p : BitVec 32) : (s.setPrg p).ktab = s.ktab := rfl
@[simp] theorem State.setPrg_ktabValid (s : State) (p : BitVec 32) : (s.setPrg p).ktabValid = s.ktabValid := rfl
@[simp] theorem State.setPrg_pkey (s : State) (p : BitVec 32) : (s.setPrg p).pkey = s.pkey := rfl
@[simp] theorem State.setPrg_prg (s : State) (p : BitVec 32) : (s.setPrg p).prg = p := rfl
@[simp] theorem State.setPrg_scratch (s : State) (p : BitVec 32) : (s.setPrg p).scratch = s.scratch := rfl
@[simp] theorem State.setPrg_olen (s : State) (p : BitVec 32) : (s.setPrg p).olen = s.olen := rfl
@[simp] theorem State.setPrg_ibuf (s : State) (p : BitVec 32) : (s.setPrg p).ibuf = s.ibuf := rfl
@[simp] theorem State.setPrg_ilen (s : State) (p : BitVec 32) : (s.setPrg p).ilen = s.ilen := rfl
@[simp] theorem State.setPrg_busy (s : State) (p : BitVec 32) : (s.setPrg p).busy = s.busy := rfl
@[simp] theorem State.setPrg_done (s : State) (p : BitVec 32) : (s.setPrg p).done = s.done := rfl
@[simp] theorem State.setPrg_err (s : State) (p : BitVec 32) : (s.setPrg p).err = s.err := rfl
@[simp] theorem State.setPrg_inbox (s : State) (p : BitVec 32) : (s.setPrg p).inbox = s.inbox := rfl
@[simp] theorem State.setPrg_hostData (s : State) (p : BitVec 32) : (s.setPrg p).hostData = s.hostData := rfl
@[simp] theorem State.setPrg_freeCount (s : State) (p : BitVec 32) : (s.setPrg p).freeCount = s.freeCount := rfl
@[simp] theorem State.setPrg_ibufFree (s : State) (p : BitVec 32) : (s.setPrg p).ibufFree = s.ibufFree := rfl

/-! ### `State.setIbuf` -/

@[simp] theorem State.setIbuf_seed (s : State) (m : Memory) : (s.setIbuf m).seed = s.seed := rfl
@[simp] theorem State.setIbuf_salt (s : State) (m : Memory) : (s.setIbuf m).salt = s.salt := rfl
@[simp] theorem State.setIbuf_skey (s : State) (m : Memory) : (s.setIbuf m).skey = s.skey := rfl
@[simp] theorem State.setIbuf_ktab (s : State) (m : Memory) : (s.setIbuf m).ktab = s.ktab := rfl
@[simp] theorem State.setIbuf_ktabValid (s : State) (m : Memory) : (s.setIbuf m).ktabValid = s.ktabValid := rfl
@[simp] theorem State.setIbuf_pkey (s : State) (m : Memory) : (s.setIbuf m).pkey = s.pkey := rfl
@[simp] theorem State.setIbuf_prg (s : State) (m : Memory) : (s.setIbuf m).prg = s.prg := rfl
@[simp] theorem State.setIbuf_scratch (s : State) (m : Memory) : (s.setIbuf m).scratch = s.scratch := rfl
@[simp] theorem State.setIbuf_olen (s : State) (m : Memory) : (s.setIbuf m).olen = s.olen := rfl
@[simp] theorem State.setIbuf_ibuf (s : State) (m : Memory) : (s.setIbuf m).ibuf = m := rfl
@[simp] theorem State.setIbuf_ilen (s : State) (m : Memory) : (s.setIbuf m).ilen = s.ilen := rfl
@[simp] theorem State.setIbuf_busy (s : State) (m : Memory) : (s.setIbuf m).busy = s.busy := rfl
@[simp] theorem State.setIbuf_done (s : State) (m : Memory) : (s.setIbuf m).done = s.done := rfl
@[simp] theorem State.setIbuf_err (s : State) (m : Memory) : (s.setIbuf m).err = s.err := rfl
@[simp] theorem State.setIbuf_inbox (s : State) (m : Memory) : (s.setIbuf m).inbox = s.inbox := rfl
@[simp] theorem State.setIbuf_hostData (s : State) (m : Memory) : (s.setIbuf m).hostData = s.hostData := rfl
@[simp] theorem State.setIbuf_freeCount (s : State) (m : Memory) : (s.setIbuf m).freeCount = s.freeCount := rfl
@[simp] theorem State.setIbuf_ibufFree (s : State) (m : Memory) : (s.setIbuf m).ibufFree = s.ibufFree := rfl

/-! ### `State.setIlen` -/

@[simp] theorem State.setIlen_seed (s : State) (n : BitVec 16) : (s.setIlen n).seed = s.seed := rfl
@[simp] theorem State.setIlen_salt (s : State) (n : BitVec 16) : (s.setIlen n).salt = s.salt := rfl
@[simp] theorem State.setIlen_skey (s : State) (n : BitVec 16) : (s.setIlen n).skey = s.skey := rfl
@[simp] theorem State.setIlen_ktab (s : State) (n : BitVec 16) : (s.setIlen n).ktab = s.ktab := rfl
@[simp] theorem State.setIlen_ktabValid (s : State) (n : BitVec 16) : (s.setIlen n).ktabValid = s.ktabValid := rfl
@[simp] theorem State.setIlen_pkey (s : State) (n : BitVec 16) : (s.setIlen n).pkey = s.pkey := rfl
@[simp] theorem State.setIlen_prg (s : State) (n : BitVec 16) : (s.setIlen n).prg = s.prg := rfl
@[simp] theorem State.setIlen_scratch (s : State) (n : BitVec 16) : (s.setIlen n).scratch = s.scratch := rfl
@[simp] theorem State.setIlen_olen (s : State) (n : BitVec 16) : (s.setIlen n).olen = s.olen := rfl
@[simp] theorem State.setIlen_ibuf (s : State) (n : BitVec 16) : (s.setIlen n).ibuf = s.ibuf := rfl
@[simp] theorem State.setIlen_ilen (s : State) (n : BitVec 16) : (s.setIlen n).ilen = n := rfl
@[simp] theorem State.setIlen_busy (s : State) (n : BitVec 16) : (s.setIlen n).busy = s.busy := rfl
@[simp] theorem State.setIlen_done (s : State) (n : BitVec 16) : (s.setIlen n).done = s.done := rfl
@[simp] theorem State.setIlen_err (s : State) (n : BitVec 16) : (s.setIlen n).err = s.err := rfl
@[simp] theorem State.setIlen_inbox (s : State) (n : BitVec 16) : (s.setIlen n).inbox = s.inbox := rfl
@[simp] theorem State.setIlen_hostData (s : State) (n : BitVec 16) : (s.setIlen n).hostData = s.hostData := rfl
@[simp] theorem State.setIlen_freeCount (s : State) (n : BitVec 16) : (s.setIlen n).freeCount = s.freeCount := rfl
@[simp] theorem State.setIlen_ibufFree (s : State) (n : BitVec 16) : (s.setIlen n).ibufFree = s.ibufFree := rfl

/-! ### `State.answer` -/

@[simp] theorem State.answer_seed (s : State) (v : BitVec 64) : (s.answer v).seed = s.seed := rfl
@[simp] theorem State.answer_salt (s : State) (v : BitVec 64) : (s.answer v).salt = s.salt := rfl
@[simp] theorem State.answer_skey (s : State) (v : BitVec 64) : (s.answer v).skey = s.skey := rfl
@[simp] theorem State.answer_ktab (s : State) (v : BitVec 64) : (s.answer v).ktab = s.ktab := rfl
@[simp] theorem State.answer_ktabValid (s : State) (v : BitVec 64) : (s.answer v).ktabValid = s.ktabValid := rfl
@[simp] theorem State.answer_pkey (s : State) (v : BitVec 64) : (s.answer v).pkey = s.pkey := rfl
@[simp] theorem State.answer_prg (s : State) (v : BitVec 64) : (s.answer v).prg = s.prg := rfl
@[simp] theorem State.answer_scratch (s : State) (v : BitVec 64) : (s.answer v).scratch = s.scratch := rfl
@[simp] theorem State.answer_olen (s : State) (v : BitVec 64) : (s.answer v).olen = s.olen := rfl
@[simp] theorem State.answer_ibuf (s : State) (v : BitVec 64) : (s.answer v).ibuf = s.ibuf := rfl
@[simp] theorem State.answer_ilen (s : State) (v : BitVec 64) : (s.answer v).ilen = s.ilen := rfl
@[simp] theorem State.answer_busy (s : State) (v : BitVec 64) : (s.answer v).busy = s.busy := rfl
@[simp] theorem State.answer_done (s : State) (v : BitVec 64) : (s.answer v).done = s.done := rfl
@[simp] theorem State.answer_err (s : State) (v : BitVec 64) : (s.answer v).err = s.err := rfl
@[simp] theorem State.answer_inbox (s : State) (v : BitVec 64) : (s.answer v).inbox = s.inbox := rfl
@[simp] theorem State.answer_hostData (s : State) (v : BitVec 64) : (s.answer v).hostData = v := rfl
@[simp] theorem State.answer_freeCount (s : State) (v : BitVec 64) : (s.answer v).freeCount = s.freeCount := rfl
@[simp] theorem State.answer_ibufFree (s : State) (v : BitVec 64) : (s.answer v).ibufFree = s.ibufFree := rfl

/-! ### `State.popped` -/

@[simp] theorem State.popped_seed (s : State) (rest : List HostMove) : (s.popped rest).seed = s.seed := rfl
@[simp] theorem State.popped_salt (s : State) (rest : List HostMove) : (s.popped rest).salt = s.salt := rfl
@[simp] theorem State.popped_skey (s : State) (rest : List HostMove) : (s.popped rest).skey = s.skey := rfl
@[simp] theorem State.popped_ktab (s : State) (rest : List HostMove) : (s.popped rest).ktab = s.ktab := rfl
@[simp] theorem State.popped_ktabValid (s : State) (rest : List HostMove) : (s.popped rest).ktabValid = s.ktabValid := rfl
@[simp] theorem State.popped_pkey (s : State) (rest : List HostMove) : (s.popped rest).pkey = s.pkey := rfl
@[simp] theorem State.popped_prg (s : State) (rest : List HostMove) : (s.popped rest).prg = s.prg := rfl
@[simp] theorem State.popped_scratch (s : State) (rest : List HostMove) : (s.popped rest).scratch = s.scratch := rfl
@[simp] theorem State.popped_olen (s : State) (rest : List HostMove) : (s.popped rest).olen = s.olen := rfl
@[simp] theorem State.popped_ibuf (s : State) (rest : List HostMove) : (s.popped rest).ibuf = s.ibuf := rfl
@[simp] theorem State.popped_ilen (s : State) (rest : List HostMove) : (s.popped rest).ilen = s.ilen := rfl
@[simp] theorem State.popped_busy (s : State) (rest : List HostMove) : (s.popped rest).busy = s.busy := rfl
@[simp] theorem State.popped_done (s : State) (rest : List HostMove) : (s.popped rest).done = s.done := rfl
@[simp] theorem State.popped_err (s : State) (rest : List HostMove) : (s.popped rest).err = s.err := rfl
@[simp] theorem State.popped_inbox (s : State) (rest : List HostMove) : (s.popped rest).inbox = rest := rfl
@[simp] theorem State.popped_hostData (s : State) (rest : List HostMove) : (s.popped rest).hostData = s.hostData := rfl
@[simp] theorem State.popped_freeCount (s : State) (rest : List HostMove) : (s.popped rest).freeCount = s.freeCount := rfl
@[simp] theorem State.popped_ibufFree (s : State) (rest : List HostMove) : (s.popped rest).ibufFree = s.ibufFree := rfl

/-! ### `State.accept` -/

@[simp] theorem State.accept_seed (s : State) : s.accept.seed = s.seed := rfl
@[simp] theorem State.accept_salt (s : State) : s.accept.salt = s.salt := rfl
@[simp] theorem State.accept_skey (s : State) : s.accept.skey = s.skey := rfl
@[simp] theorem State.accept_ktab (s : State) : s.accept.ktab = s.ktab := rfl
@[simp] theorem State.accept_ktabValid (s : State) : s.accept.ktabValid = s.ktabValid := rfl
@[simp] theorem State.accept_pkey (s : State) : s.accept.pkey = s.pkey := rfl
@[simp] theorem State.accept_prg (s : State) : s.accept.prg = s.prg := rfl
@[simp] theorem State.accept_scratch (s : State) : s.accept.scratch = s.scratch := rfl
@[simp] theorem State.accept_olen (s : State) : s.accept.olen = s.olen := rfl
@[simp] theorem State.accept_ibuf (s : State) : s.accept.ibuf = s.ibuf := rfl
@[simp] theorem State.accept_ilen (s : State) : s.accept.ilen = s.ilen := rfl
@[simp] theorem State.accept_busy (s : State) : s.accept.busy = true := rfl
@[simp] theorem State.accept_done (s : State) : s.accept.done = false := rfl
@[simp] theorem State.accept_err (s : State) : s.accept.err = .none := rfl
@[simp] theorem State.accept_inbox (s : State) : s.accept.inbox = s.inbox := rfl
@[simp] theorem State.accept_hostData (s : State) : s.accept.hostData = s.hostData := rfl
@[simp] theorem State.accept_freeCount (s : State) : s.accept.freeCount = s.freeCount := rfl
@[simp] theorem State.accept_ibufFree (s : State) : s.accept.ibufFree = s.ibufFree := rfl

/-! ### `State.finish` -/

@[simp] theorem State.finish_seed (s : State) (e : ErrCode) (r : List Byte) : (s.finish e r).seed = s.seed := rfl
@[simp] theorem State.finish_salt (s : State) (e : ErrCode) (r : List Byte) : (s.finish e r).salt = s.salt := rfl
@[simp] theorem State.finish_skey (s : State) (e : ErrCode) (r : List Byte) : (s.finish e r).skey = s.skey := rfl
@[simp] theorem State.finish_ktab (s : State) (e : ErrCode) (r : List Byte) : (s.finish e r).ktab = s.ktab := rfl
@[simp] theorem State.finish_ktabValid (s : State) (e : ErrCode) (r : List Byte) : (s.finish e r).ktabValid = s.ktabValid := rfl
@[simp] theorem State.finish_pkey (s : State) (e : ErrCode) (r : List Byte) : (s.finish e r).pkey = Config.freeKey s.freeCount := rfl
@[simp] theorem State.finish_prg (s : State) (e : ErrCode) (r : List Byte) : (s.finish e r).prg = s.prg := rfl
@[simp] theorem State.finish_scratch (s : State) (e : ErrCode) (r : List Byte) : (s.finish e r).scratch = Memory.ofBytes 0 r := rfl
@[simp] theorem State.finish_olen (s : State) (e : ErrCode) (r : List Byte) : (s.finish e r).olen = BitVec.ofNat 16 r.length := rfl
@[simp] theorem State.finish_ibuf (s : State) (e : ErrCode) (r : List Byte) : (s.finish e r).ibuf = s.ibuf := rfl
@[simp] theorem State.finish_ilen (s : State) (e : ErrCode) (r : List Byte) : (s.finish e r).ilen = s.ilen := rfl
@[simp] theorem State.finish_busy (s : State) (e : ErrCode) (r : List Byte) : (s.finish e r).busy = false := rfl
@[simp] theorem State.finish_done (s : State) (e : ErrCode) (r : List Byte) : (s.finish e r).done = true := rfl
@[simp] theorem State.finish_err (s : State) (e : ErrCode) (r : List Byte) : (s.finish e r).err = e := rfl
@[simp] theorem State.finish_inbox (s : State) (e : ErrCode) (r : List Byte) : (s.finish e r).inbox = s.inbox := rfl
@[simp] theorem State.finish_hostData (s : State) (e : ErrCode) (r : List Byte) : (s.finish e r).hostData = s.hostData := rfl
@[simp] theorem State.finish_freeCount (s : State) (e : ErrCode) (r : List Byte) : (s.finish e r).freeCount = s.freeCount + 1 := rfl
@[simp] theorem State.finish_ibufFree (s : State) (e : ErrCode) (r : List Byte) : (s.finish e r).ibufFree = s.ibufFree := rfl

/-! ### `State.raise` -/

@[simp] theorem State.raise_seed (s : State) (e : ErrCode) : (s.raise e).seed = s.seed := rfl
@[simp] theorem State.raise_salt (s : State) (e : ErrCode) : (s.raise e).salt = s.salt := rfl
@[simp] theorem State.raise_skey (s : State) (e : ErrCode) : (s.raise e).skey = s.skey := rfl
@[simp] theorem State.raise_ktab (s : State) (e : ErrCode) : (s.raise e).ktab = s.ktab := rfl
@[simp] theorem State.raise_ktabValid (s : State) (e : ErrCode) : (s.raise e).ktabValid = s.ktabValid := rfl
@[simp] theorem State.raise_pkey (s : State) (e : ErrCode) : (s.raise e).pkey = Config.freeKey s.freeCount := rfl
@[simp] theorem State.raise_prg (s : State) (e : ErrCode) : (s.raise e).prg = s.prg := rfl
@[simp] theorem State.raise_scratch (s : State) (e : ErrCode) : (s.raise e).scratch = [] := rfl
@[simp] theorem State.raise_olen (s : State) (e : ErrCode) : (s.raise e).olen = 0 := rfl
@[simp] theorem State.raise_ibuf (s : State) (e : ErrCode) : (s.raise e).ibuf = s.ibuf := rfl
@[simp] theorem State.raise_ilen (s : State) (e : ErrCode) : (s.raise e).ilen = s.ilen := rfl
@[simp] theorem State.raise_busy (s : State) (e : ErrCode) : (s.raise e).busy = false := rfl
@[simp] theorem State.raise_done (s : State) (e : ErrCode) : (s.raise e).done = true := rfl
@[simp] theorem State.raise_err (s : State) (e : ErrCode) : (s.raise e).err = e := rfl
@[simp] theorem State.raise_inbox (s : State) (e : ErrCode) : (s.raise e).inbox = s.inbox := rfl
@[simp] theorem State.raise_hostData (s : State) (e : ErrCode) : (s.raise e).hostData = s.hostData := rfl
@[simp] theorem State.raise_freeCount (s : State) (e : ErrCode) : (s.raise e).freeCount = s.freeCount + 1 := rfl
@[simp] theorem State.raise_ibufFree (s : State) (e : ErrCode) : (s.raise e).ibufFree = s.ibufFree := rfl

/-! ### `State.deliver` -/

@[simp] theorem State.deliver_seed (s : State) (r : List Byte) : (s.deliver r).seed = s.seed := rfl
@[simp] theorem State.deliver_salt (s : State) (r : List Byte) : (s.deliver r).salt = s.salt := rfl
@[simp] theorem State.deliver_skey (s : State) (r : List Byte) : (s.deliver r).skey = s.skey := rfl
@[simp] theorem State.deliver_ktab (s : State) (r : List Byte) : (s.deliver r).ktab = s.ktab := rfl
@[simp] theorem State.deliver_ktabValid (s : State) (r : List Byte) : (s.deliver r).ktabValid = s.ktabValid := rfl
@[simp] theorem State.deliver_pkey (s : State) (r : List Byte) : (s.deliver r).pkey = Config.freeKey s.freeCount := rfl
@[simp] theorem State.deliver_prg (s : State) (r : List Byte) : (s.deliver r).prg = s.prg := rfl
@[simp] theorem State.deliver_scratch (s : State) (r : List Byte) : (s.deliver r).scratch = Memory.ofBytes 0 r := rfl
@[simp] theorem State.deliver_olen (s : State) (r : List Byte) : (s.deliver r).olen = BitVec.ofNat 16 r.length := rfl
@[simp] theorem State.deliver_ibuf (s : State) (r : List Byte) : (s.deliver r).ibuf = s.ibuf := rfl
@[simp] theorem State.deliver_ilen (s : State) (r : List Byte) : (s.deliver r).ilen = s.ilen := rfl
@[simp] theorem State.deliver_busy (s : State) (r : List Byte) : (s.deliver r).busy = false := rfl
@[simp] theorem State.deliver_done (s : State) (r : List Byte) : (s.deliver r).done = true := rfl
@[simp] theorem State.deliver_err (s : State) (r : List Byte) : (s.deliver r).err = .none := rfl
@[simp] theorem State.deliver_inbox (s : State) (r : List Byte) : (s.deliver r).inbox = s.inbox := rfl
@[simp] theorem State.deliver_hostData (s : State) (r : List Byte) : (s.deliver r).hostData = s.hostData := rfl
@[simp] theorem State.deliver_freeCount (s : State) (r : List Byte) : (s.deliver r).freeCount = s.freeCount + 1 := rfl
@[simp] theorem State.deliver_ibufFree (s : State) (r : List Byte) : (s.deliver r).ibufFree = s.ibufFree := rfl

/-! ### `State.resetNow` -/

@[simp] theorem State.resetNow_seed (s : State) : s.resetNow.seed = 0 := rfl
@[simp] theorem State.resetNow_salt (s : State) : s.resetNow.salt = tabulate 256 (BitVec.ofNat 8) := rfl
@[simp] theorem State.resetNow_skey (s : State) : s.resetNow.skey = Config.defaultStaticKeystream := rfl
@[simp] theorem State.resetNow_ktab (s : State) : s.resetNow.ktab = Config.freeTable s.freeCount := rfl
@[simp] theorem State.resetNow_ktabValid (s : State) : s.resetNow.ktabValid = false := rfl
@[simp] theorem State.resetNow_pkey (s : State) : s.resetNow.pkey = Config.freeKey s.freeCount := rfl
@[simp] theorem State.resetNow_prg (s : State) : s.resetNow.prg = 1 := rfl
@[simp] theorem State.resetNow_scratch (s : State) : s.resetNow.scratch = [] := rfl
@[simp] theorem State.resetNow_olen (s : State) : s.resetNow.olen = 0 := rfl
@[simp] theorem State.resetNow_ibuf (s : State) : s.resetNow.ibuf = [] := rfl
@[simp] theorem State.resetNow_ilen (s : State) : s.resetNow.ilen = 0 := rfl
@[simp] theorem State.resetNow_busy (s : State) : s.resetNow.busy = false := rfl
@[simp] theorem State.resetNow_done (s : State) : s.resetNow.done = false := rfl
@[simp] theorem State.resetNow_err (s : State) : s.resetNow.err = .none := rfl
@[simp] theorem State.resetNow_inbox (s : State) : s.resetNow.inbox = s.inbox := rfl
@[simp] theorem State.resetNow_hostData (s : State) : s.resetNow.hostData = s.hostData := rfl
@[simp] theorem State.resetNow_freeCount (s : State) : s.resetNow.freeCount = s.freeCount + 1 := rfl
@[simp] theorem State.resetNow_ibufFree (s : State) : s.resetNow.ibufFree = s.freeCount := rfl

end Sys2Proof.Machine
end

