-- ==== Sys2Proof/Laws/Ops.lean ====
section
/-! SUPPORT. What each shared operation can do, said once: ending an operation, the checks, the effect after them. -/

namespace Sys2Proof.Machine

/-- An operation's end leaves every byte of the input buffer. -/
@[simp] theorem State.finish_inputByte (s : State) (e : ErrCode) (r : List Byte) (k : Nat) :
    (s.finish e r).inputByte k = s.inputByte k := rfl
/-- The error entry leaves every byte of the input buffer. -/
@[simp] theorem State.raise_inputByte (s : State) (e : ErrCode) (k : Nat) :
    (s.raise e).inputByte k = s.inputByte k := rfl
/-- Delivering a result leaves every byte of the input buffer. -/
@[simp] theorem State.deliver_inputByte (s : State) (r : List Byte) (k : Nat) :
    (s.deliver r).inputByte k = s.inputByte k := rfl
/-- A generator step leaves every byte of the input buffer. -/
@[simp] theorem State.setPrg_inputByte (s : State) (p : BitVec 32) (k : Nat) :
    (s.setPrg p).inputByte k = s.inputByte k := rfl
/-- A new Salt Table leaves every byte of the input buffer. -/
@[simp] theorem State.setSalt_inputByte (s : State) (n : BitVec 4) (t : Table 256) (k : Nat) :
    (s.setSalt n t).inputByte k = s.inputByte k := rfl
/-- A new static keystream leaves every byte of the input buffer. -/
@[simp] theorem State.setSkey_inputByte (s : State) (key : Table 9) (k : Nat) :
    (s.setSkey key).inputByte k = s.inputByte k := rfl
/-- A new Keystream Table leaves every byte of the input buffer. -/
@[simp] theorem State.setKtab_inputByte (s : State) (t : Table 1024) (k : Nat) :
    (s.setKtab t).inputByte k = s.inputByte k := rfl
/-- Acceptance of a command leaves every byte of the input buffer. -/
@[simp] theorem State.accept_inputByte (s : State) (k : Nat) :
    s.accept.inputByte k = s.inputByte k := rfl
/-- Taking a host move leaves every byte of the input buffer. -/
@[simp] theorem State.popped_inputByte (s : State) (rest : List HostMove) (k : Nat) :
    (s.popped rest).inputByte k = s.inputByte k := rfl

/-- A byte the host has written is read back. -/
theorem State.inputByte_of_read {s : State} {k : Nat} {v : Byte} (h : s.ibuf.read k = some v) :
    s.inputByte k = v := by simp [State.inputByte, h]

/-- `MemRead` of `n` bytes gives `n` bytes. -/
@[simp] theorem State.inputBytes_length (s : State) (base n : Nat) : (s.inputBytes base n).length = n := by
  simp [State.inputBytes]

/-- The bytes `MemRead` gives. -/
theorem State.inputBytes_getElem? (s : State) (base n j : Nat) (h : j < n) :
    (s.inputBytes base n)[j]? = some (s.inputByte (base + j)) := by
  simp [State.inputBytes, h]

/-- A delivered result that fits the scratch buffer is the result the host can read. -/
theorem State.deliver_resultBytes (s : State) {r : List Byte} (h : r.length ≤ Config.scratchCap) :
    (s.deliver r).resultBytes = some r := by
  have hl : r.length % 2 ^ 16 = r.length := Nat.mod_eq_of_lt (by simp only [Config.scratchCap] at h; omega)
  simp only [State.resultBytes, State.deliver_scratch, State.deliver_olen, BitVec.toNat_ofNat, hl,
    Memory.readBytes_ofBytes]

/-- The length of a delivered result that fits the scratch buffer. -/
theorem State.deliver_olen_toNat (s : State) {r : List Byte} (h : r.length ≤ Config.scratchCap) :
    (s.deliver r).olen.toNat = r.length := by
  simp only [State.deliver_olen, BitVec.toNat_ofNat]
  exact Nat.mod_eq_of_lt (by simp only [Config.scratchCap] at h; omega)

/-- All checks of a data operation pass exactly when the region lies inside the input, `COUNT` is large enough, the
length fits, and the table is ready if it is needed (R192 to R196). -/
theorem dataCheck_eq_none {s : State} {offset count least len : Nat} {k2 : Bool} :
    dataCheck s offset count least len k2 = none ↔
      offset < s.ilen.toNat ∧ offset + count ≤ s.ilen.toNat ∧ least ≤ count ∧ len ≤ Config.scratchCap
        ∧ (k2 = true → s.ktabValid = true) := by
  simp only [dataCheck, checkRange, checkMin, checkCap, checkKtab, Config.scratchCap]
  cases k2 <;> cases s.ktabValid <;> split <;> split <;> split <;> simp <;> omega

/-- The codes an operation's own checks can report: neither "no error" nor `ILLEGAL_COMMAND` (R190). -/
def OwnError (e : ErrCode) : Prop := e ≠ .none ∧ e ≠ .illegalCommand

/-- A data operation's checks report an error of its own. -/
theorem dataCheck_ownError {s : State} {offset count least len : Nat} {k2 : Bool} {e : ErrCode}
    (h : dataCheck s offset count least len k2 = some e) : OwnError e := by
  simp only [dataCheck, checkRange, checkMin, checkCap, checkKtab] at h
  refine ⟨?_, ?_⟩ <;> rintro rfl <;> revert h <;> split <;> split <;> split <;> split <;> simp

/-- An operation with checks ends in the error entry or in its effect. -/
theorem afterChecks_cases {s t effect : State} {failed : Option ErrCode}
    (h : afterChecks s failed effect = .next t) :
    (∃ e, failed = some e ∧ t = s.raise e) ∨ (failed = none ∧ t = effect) := by
  cases failed with
  | none => exact .inr ⟨rfl, by simpa [afterChecks] using h.symm⟩
  | some e => exact .inl ⟨e, rfl, by simpa [afterChecks] using h.symm⟩

/-- What an operation that ended without error did, instruction by instruction. -/
def Effect (i : Instr) (s t : State) : Prop :=
  match i with
  | .setSeed seed => ∃ h : seed < 10, t = (s.setSalt (BitVec.ofNat 4 seed) (saltGen ⟨seed, h⟩)).deliver []
  | .setSkey offset _ => t = (s.setSkey (s.inputKey offset)).deliver []
  | .genKtab offset count => t = (s.setKtab (ktabGen (s.inputBytes offset count))).deliver []
  | .encClient offset count seq k2 =>
    dataCheck s offset count 1 (count + 9 + k2.toNat) k2 = none ∧
      t = (s.setPrg (prgStep s.prg)).deliver (clientFrame s .absolute offset count seq k2)
  | .decClient offset count k2 =>
    dataCheck s offset count (10 + k2.toNat) count k2 = none ∧
      t = s.deliver (clientPayload s .absolute offset count k2)
  | .encServer offset count seq k2 =>
    dataCheck s offset count 1 (count + 4) k2 = none ∧
      t = (s.setPrg (prgStep s.prg)).deliver (serverFrame s .absolute offset count seq k2)
  | .decServer offset count k2 =>
    dataCheck s offset count 5 count k2 = none ∧ t = s.deliver (serverPayload s .absolute offset count k2)

/-- Everything an instruction can do: it ends in the error entry with a code, or in its own effect. -/
theorem exec_cases {i : Instr} {s t : State} (h : exec i s = .next t) :
    (∃ e, OwnError e ∧ t = s.raise e) ∨ Effect i s t := by
  cases i with
  | setSeed seed =>
    simp only [exec, execSetSeed] at h
    split at h
    · exact .inr ⟨‹_›, by simpa using h.symm⟩
    · exact .inl ⟨.seedRange, ⟨by decide, by decide⟩, by simpa using h.symm⟩
  | setSkey offset count =>
    rcases afterChecks_cases h with ⟨e, he, rfl⟩ | ⟨_, rfl⟩
    · refine .inl ⟨e, ?_, rfl⟩
      revert he
      simp only [checkKeyLength, checkInside]
      split <;> split <;> simp <;> rintro rfl <;> exact ⟨by decide, by decide⟩
    · exact .inr rfl
  | genKtab offset count =>
    rcases afterChecks_cases h with ⟨e, he, rfl⟩ | ⟨_, rfl⟩
    · refine .inl ⟨e, ?_, rfl⟩
      revert he
      simp only [checkInside]
      split <;> simp; rintro rfl; exact ⟨by decide, by decide⟩
    · exact .inr rfl
  | encClient offset count seq k2 =>
    rcases afterChecks_cases h with ⟨e, he, rfl⟩ | ⟨hn, rfl⟩
    · exact .inl ⟨e, dataCheck_ownError he, rfl⟩
    · exact .inr ⟨hn, rfl⟩
  | decClient offset count k2 =>
    rcases afterChecks_cases h with ⟨e, he, rfl⟩ | ⟨hn, rfl⟩
    · exact .inl ⟨e, dataCheck_ownError he, rfl⟩
    · exact .inr ⟨hn, rfl⟩
  | encServer offset count seq k2 =>
    rcases afterChecks_cases h with ⟨e, he, rfl⟩ | ⟨hn, rfl⟩
    · exact .inl ⟨e, dataCheck_ownError he, rfl⟩
    · exact .inr ⟨hn, rfl⟩
  | decServer offset count k2 =>
    rcases afterChecks_cases h with ⟨e, he, rfl⟩ | ⟨hn, rfl⟩
    · exact .inl ⟨e, dataCheck_ownError he, rfl⟩
    · exact .inr ⟨hn, rfl⟩

/-- An operation with checks always answers a next state. -/
theorem afterChecks_next (s effect : State) (failed : Option ErrCode) :
    ∃ t, afterChecks s failed effect = .next t := by
  cases failed <;> exact ⟨_, rfl⟩

/-- Every instruction answers a next state in every state. -/
theorem exec_next (i : Instr) (s : State) : ∃ t, exec i s = .next t := by
  cases i with
  | setSeed seed =>
    simp only [exec, execSetSeed]
    split <;> exact ⟨_, rfl⟩
  | setSkey => exact afterChecks_next ..
  | genKtab => exact afterChecks_next ..
  | encClient => exact afterChecks_next ..
  | decClient => exact afterChecks_next ..
  | encServer => exact afterChecks_next ..
  | decServer => exact afterChecks_next ..

end Sys2Proof.Machine
end

