-- ==== Sys2Proof/Laws/Codec.lean ====
section
/-! SUPPORT. The transform byte by byte, and the lengths of what the data operations assemble and return. -/

namespace Sys2Proof.Machine

/-- The transform keeps the length of its buffer. -/
@[simp] theorem xform_length (buf : List Byte) (off cnt : Nat) (key : Table 9) (seq : Byte) (salt : Table 256) :
    (xform buf off cnt key seq salt).length = buf.length := by simp [xform]

/-- The transform at one index of its buffer. -/
theorem xform_getElem? (buf : List Byte) (off cnt : Nat) (key : Table 9) (seq : Byte) (salt : Table 256)
    (k : Nat) :
    (xform buf off cnt key seq salt)[k]? =
      (buf[k]?).map fun v => if off ≤ k ∧ k < off + cnt then xformByte key seq salt (k - off) v else v := by
  simp [xform, List.getElem?_mapIdx]

/-- A checksum is four bytes (R150). -/
@[simp] theorem checksum_length (m : List Byte) : (checksum m).length = 4 := rfl

/-- A trailer is three bytes (R166). -/
@[simp] theorem trailer_length (a : BitVec 16) (b : Byte) (xa : BitVec 16) (xb : Byte) :
    (trailer a b xa xb).length = 3 := rfl

/-- The dup tag is one byte when `K2 = 1`. -/
@[simp] theorem dupTag_length (k2 : Bool) (tag : Byte) : (dupTag k2 tag).length = k2.toNat := by
  cases k2 <;> rfl

/-- What `ENC_CLIENT` assembles has `COUNT + 2 + K2` bytes (R151, R165). -/
theorem clientPlain_length (s : State) (base : Config.HdrBase) (offset : Nat) {count : Nat} (seq : Byte)
    (k2 : Bool) (h : 1 ≤ count) :
    (clientPlain s base offset count seq k2).length = count + 2 + k2.toNat := by
  simp [clientPlain]; omega

/-- What `ENC_SERVER` assembles has `COUNT + 1` bytes (R175). -/
theorem serverPlain_length (s : State) (base : Config.HdrBase) (offset : Nat) {count : Nat} (seq : Byte)
    (h : 1 ≤ count) : (serverPlain s base offset count seq).length = count + 1 := by
  simp [serverPlain]; omega

/-- The transform of an assembled buffer keeps its length. -/
@[simp] theorem cipherBody_length (plain : List Byte) (key : Table 9) (seq : Byte) (salt : Table 256) :
    (cipherBody plain key seq salt).length = plain.length := by simp [cipherBody]

/-- A client frame has `COUNT + 9 + K2` bytes (R160, R164). -/
theorem clientFrame_length (s : State) (base : Config.HdrBase) (offset : Nat) {count : Nat} (seq : Byte)
    (k2 : Bool) (h : 1 ≤ count) :
    (clientFrame s base offset count seq k2).length = count + 9 + k2.toNat := by
  simp [clientFrame, clientPlain_length s base offset seq k2 h]; omega

/-- A server frame has `COUNT + 4` bytes (R173, R164). -/
theorem serverFrame_length (s : State) (base : Config.HdrBase) (offset : Nat) {count : Nat} (seq : Byte)
    (k2 : Bool) (h : 1 ≤ count) : (serverFrame s base offset count seq k2).length = count + 4 := by
  simp [serverFrame, serverPlain_length s base offset seq h]

/-- Deciphering gives as many bytes as it takes. -/
@[simp] theorem deciphered_length (s : State) (base : Config.HdrBase) (offset m : Nat) (key : Table 9) :
    (deciphered s base offset m key).length = m := by simp [deciphered]

/-- `DEC_CLIENT` returns `COUNT - 9 - K2` bytes (R164, R170). -/
theorem clientPayload_length (s : State) (base : Config.HdrBase) (offset : Nat) {count : Nat} (k2 : Bool)
    (h : 10 + k2.toNat ≤ count) :
    (clientPayload s base offset count k2).length = count - 9 - k2.toNat := by
  simp [clientPayload]; omega

/-- `DEC_SERVER` returns `COUNT - 4` bytes (R164, R179). -/
theorem serverPayload_length (s : State) (base : Config.HdrBase) (offset : Nat) {count : Nat} (k2 : Bool)
    (h : 5 ≤ count) : (serverPayload s base offset count k2).length = count - 4 := by
  simp [serverPayload]; omega

/-- The scalar `b` survives the trailer (R166). -/
@[simp] theorem untrailerB_xor (b xb : Byte) : untrailerB (b ^^^ xb) xb = b := by
  simp [untrailerB]

/-- The transform of one byte is XOR with the mask (R142). -/
theorem xformByte_eq_xor_mask (key : Table 9) (seq : Byte) (salt : Table 256) (i : Nat) (v : Byte) :
    xformByte key seq salt i v = v ^^^ xformMask key seq salt i := by
  simp only [xformByte, xformMask]
  split <;> simp [BitVec.xor_assoc]

/-- An assembled buffer after the transform: the first two bytes as they were, every other XORed with its mask. -/
theorem cipherBody_getElem? (plain : List Byte) (key : Table 9) (seq : Byte) (salt : Table 256) (k : Nat) :
    (cipherBody plain key seq salt)[k]? =
      (plain[k]?).map fun v => if 2 ≤ k then v ^^^ xformMask key seq salt (k - 2) else v := by
  rw [cipherBody, xform_getElem?]
  rcases Nat.lt_or_ge k plain.length with h | h
  · simp only [List.getElem?_eq_getElem h, Option.map_some, xformByte_eq_xor_mask]
    by_cases h2 : 2 ≤ k
    · rw [if_pos (by omega), if_pos h2]
    · rw [if_neg (by omega), if_neg h2]
  · simp [h]

/-- Deciphered bytes: the region's byte XORed with its mask. -/
theorem deciphered_getElem? (s : State) (base : Config.HdrBase) (offset m : Nat) (key : Table 9) (j : Nat) :
    (deciphered s base offset m key)[j]? = if j < m then
      some (s.inputByte (offset + 2 + j) ^^^ xformMask key (s.seqByte base offset) s.salt j) else none := by
  rw [deciphered, xform_getElem?]
  by_cases h : j < m
  · rw [State.inputBytes_getElem? _ _ _ _ h]; simp [xformByte_eq_xor_mask, h]
  · simp [h]

end Sys2Proof.Machine
end

