-- ==== Sys2Proof/Laws/Encoding.lean ====
section
/-! SUPPORT. The fields of the command word, read back from the format `C64` (30_encoding.md rules R70 and R73). -/

namespace Sys2Proof.Laws

/-- The bits of a word of the format `C64` (R70). -/
theorem encodeFields_getLsbD (opc : Byte) (k2 : Bool) (arg : Byte) (offset count j : Nat) :
    (encodeFields opc k2 arg offset count).getLsbD j =
      (decide (j < 64) && (opc.getLsbD j || (decide (8 ≤ j) && ((BitVec.ofBool k2).getLsbD (j - 8)))
        || (decide (16 ≤ j) && arg.getLsbD (j - 16)) || (decide (32 ≤ j) && offset.testBit (j - 32))
        || (decide (48 ≤ j) && count.testBit (j - 48)))) := by
  simp only [encodeFields, BitVec.getLsbD_or, BitVec.getLsbD_shiftLeft, BitVec.truncate_eq_setWidth,
    BitVec.getLsbD_setWidth, BitVec.getLsbD_ofNat]
  by_cases h : j < 64
  · simp only [h, decide_true, Bool.true_and]
    by_cases h8 : j < 8 <;> by_cases h16 : j < 16 <;> by_cases h32 : j < 32 <;> by_cases h48 : j < 48 <;>
      simp [show j - 8 < 64 by omega, show j - 16 < 64 by omega, show j - 32 < 64 by omega,
        show j - 48 < 64 by omega, Nat.not_le.mpr, Nat.not_lt.mp, *]
  · simp [h]

/-- A number below 2^16 has no bit from 16 on. -/
theorem testBit_of_lt {n j : Nat} (hn : n < 65536) (hj : 16 ≤ j) : n.testBit j = false :=
  Nat.testBit_lt_two_pow (Nat.lt_of_lt_of_le hn (Nat.pow_le_pow_right (by decide : 0 < 2) hj : 2 ^ 16 ≤ 2 ^ j))

/-- `OPC` read back. -/
theorem fieldOpc_encodeFields (opc : Byte) (k2 : Bool) (arg : Byte) (offset count : Nat) :
    fieldOpc (encodeFields opc k2 arg offset count) = opc := by
  apply BitVec.eq_of_getLsbD_eq
  intro j hj
  rw [fieldOpc, BitVec.getLsbD_extractLsb', encodeFields_getLsbD]
  simp [hj, show j < 64 by omega, show ¬ 8 ≤ j by omega,
    show ¬ 16 ≤ j by omega, show ¬ 32 ≤ j by omega, show ¬ 48 ≤ j by omega]

/-- `K2` read back. -/
theorem fieldK2_encodeFields (opc : Byte) (k2 : Bool) (arg : Byte) (offset count : Nat) :
    fieldK2 (encodeFields opc k2 arg offset count) = k2 := by
  rw [fieldK2, encodeFields_getLsbD]
  cases k2 <;> simp

/-- `ARG` read back. -/
theorem fieldArg_encodeFields (opc : Byte) (k2 : Bool) (arg : Byte) (offset count : Nat) :
    fieldArg (encodeFields opc k2 arg offset count) = arg := by
  apply BitVec.eq_of_getLsbD_eq
  intro j hj
  rw [fieldArg, BitVec.getLsbD_extractLsb', encodeFields_getLsbD]
  cases k2 <;>
  simp [hj, show 16 + j < 64 by omega, show 8 ≤ 16 + j by omega,
    show ¬ 32 ≤ 16 + j by omega, show ¬ 48 ≤ 16 + j by omega,
    show 16 + j - 8 ≠ 0 by omega]

/-- `OFFSET` read back, when it fits its field. -/
theorem fieldOffset_encodeFields (opc : Byte) (k2 : Bool) (arg : Byte) {offset : Nat} (count : Nat)
    (h : offset < 65536) : fieldOffset (encodeFields opc k2 arg offset count) = offset := by
  have hb : (encodeFields opc k2 arg offset count).extractLsb' 32 16 = BitVec.ofNat 16 offset := by
    apply BitVec.eq_of_getLsbD_eq
    intro j hj
    rw [BitVec.getLsbD_extractLsb', encodeFields_getLsbD]
    cases k2 <;>
    simp [hj, show 32 + j < 64 by omega, show 8 ≤ 32 + j by omega,
      show 16 ≤ 32 + j by omega, show ¬ 48 ≤ 32 + j by omega, show 32 + j - 8 ≠ 0 by omega,
      BitVec.getLsbD_of_ge arg (32 + j - 16) (by omega), BitVec.getElem_eq_testBit_toNat, Nat.mod_eq_of_lt h]
  simp only [fieldOffset, hb, BitVec.toNat_ofNat]
  exact Nat.mod_eq_of_lt h

/-- `COUNT` read back, when both regions fit their fields. -/
theorem fieldCount_encodeFields (opc : Byte) (k2 : Bool) (arg : Byte) {offset count : Nat}
    (ho : offset < 65536) (h : count < 65536) :
    fieldCount (encodeFields opc k2 arg offset count) = count := by
  have hb : (encodeFields opc k2 arg offset count).extractLsb' 48 16 = BitVec.ofNat 16 count := by
    apply BitVec.eq_of_getLsbD_eq
    intro j hj
    rw [BitVec.getLsbD_extractLsb', encodeFields_getLsbD]
    cases k2 <;>
    simp [hj, show 48 + j < 64 by omega, show 8 ≤ 48 + j by omega,
      show 16 ≤ 48 + j by omega, show 32 ≤ 48 + j by omega, show 48 + j - 8 ≠ 0 by omega,
      testBit_of_lt ho (show 16 ≤ 48 + j - 32 by omega),
      BitVec.getLsbD_of_ge arg (48 + j - 16) (by omega), BitVec.getElem_eq_testBit_toNat, Nat.mod_eq_of_lt h]
  simp only [fieldCount, hb, BitVec.toNat_ofNat]
  exact Nat.mod_eq_of_lt h

/-- A mask of the low 32 bits does not see the region fields. -/
theorem encodeFields_and_low (opc : Byte) (k2 : Bool) (arg : Byte) (offset count : Nat) (m : BitVec 32) :
    encodeFields opc k2 arg offset count &&& m.zeroExtend 64
      = encodeFields opc k2 arg 0 0 &&& m.zeroExtend 64 := by
  apply BitVec.eq_of_getLsbD_eq
  intro j hj
  simp only [BitVec.getLsbD_and, encodeFields_getLsbD, BitVec.truncate_eq_setWidth, BitVec.getLsbD_setWidth]
  by_cases h : j < 32
  · simp [show ¬ 32 ≤ j by omega, show ¬ 48 ≤ j by omega]
  · simp [BitVec.getLsbD_of_ge m j (by omega)]

end Sys2Proof.Laws
end

