-- ==== Sys2Proof/Laws/HostPort.lean ====
section
/-! SUPPORT. What a step and the shared operations of the host port can do, said once. -/

namespace Sys2Proof.Machine

/-- With no move to come a step keeps the state. -/
theorem step_of_empty {s : State} (h : s.inbox = []) : step s = .next s := by simp [step, h]

/-- With a move to come a step performs it on the state without it. -/
theorem step_of_move {s : State} {m : HostMove} {rest : List HostMove} (h : s.inbox = m :: rest) :
    step s = hostMove m (s.popped rest) := by simp [step, h]

/-- A command written to a busy block is dropped. -/
theorem writeCmd_of_busy {s : State} (w : BitVec 64) (h : s.busy = true) : writeCmd w s = .next s := by
  simp [writeCmd, h]

/-- A command that decodes, written to an idle block, is accepted and performed. -/
theorem writeCmd_of_decode {s : State} {w : BitVec 64} {i : Instr} (h : s.busy = false) (hd : decode w = .ok i) :
    writeCmd w s = exec i s.accept := by
  simp [writeCmd, h, hd]

/-- A command that does not decode, written to an idle block, ends in `ILLEGAL_COMMAND`. -/
theorem writeCmd_of_error {s : State} {w : BitVec 64} {e : DecodeError} (h : s.busy = false)
    (hd : decode w = .error e) : writeCmd w s = .next (s.accept.raise .illegalCommand) := by
  simp [writeCmd, h, hd]

/-- The input may be written while the block is idle. -/
theorem inputWrite_of_idle {s : State} (t : State) (h : s.busy = false) : inputWrite s t = .next t := by
  simp [inputWrite, h]

/-- The input may not be written while the block is busy. -/
theorem inputWrite_of_busy {s : State} (t : State) (h : s.busy = true) :
    inputWrite s t = .refused .inputWrittenWhileBusy := by
  simp [inputWrite, h]

/-- A move on an index inside its buffer is the move. -/
theorem indexed_of_lt {space : Space} {cap k : Nat} (inside : Host.Outcome State Fault Refusal) (h : k < cap) :
    indexed space cap k inside = inside := by
  simp [indexed, h]

/-- The eight bytes of a word make the word again. -/
theorem wordOfBytes_bytesOfWord (w : BitVec 64) : wordOfBytes (bytesOfWord w) = w := by
  simp only [bytesOfWord, byteOfWord, List.range, List.range.loop, List.map_cons, List.map_nil, wordOfBytes]
  ext i hi
  simp only [BitVec.getElem_or, BitVec.getElem_shiftLeft, BitVec.getElem_setWidth, BitVec.getLsbD_extractLsb']
  interval_cases i <;> simp

/-- The length the host writes with a buffer that fits. -/
theorem State.loadInput_ilen_toNat (s : State) {bytes : List Byte} (h : bytes.length ≤ Config.ibufCap) :
    (s.loadInput bytes).ilen.toNat = bytes.length := by
  simp only [State.loadInput, State.setIlen_ilen, BitVec.toNat_ofNat]
  exact Nat.mod_eq_of_lt (by simp only [Config.ibufCap] at h; omega)

/-- Every byte the host has loaded is the byte an operation reads. -/
theorem State.loadInput_inputByte (s : State) {bytes : List Byte} {k : Nat} (h : k < bytes.length) :
    (s.loadInput bytes).inputByte k = bytes[k] :=
  State.inputByte_of_read (by simp [State.loadInput, Memory.read_writeBytes, h])

end Sys2Proof.Machine
end

