-- ==== Sys2Proof/Laws/PerInstr.lean ====
section
/-! SUPPORT. For every instruction: its word lies in its own row of the opcode map, with the row's operation code
(30_encoding.md rules R70 and R72). -/

namespace Sys2Proof

/-- A well-formed instruction's word is selected by its own row, and its field `OPC` is the row's code. -/
def Laws.Encoding.Statement (i : Instr) : Prop :=
  i.WellFormed → i.opcode.selects (encode i) = true ∧ fieldOpc (encode i) = i.opcode.code

theorem Laws.Encoding.setSeed (seed : Nat) : Laws.Encoding.Statement (.setSeed seed) := fun _ =>
  ⟨(by decide +kernel : ∀ arg : Byte, Opcode.setSeed.selects (encodeFields 0x01 false arg 0 0) = true) _,
    fieldOpc_encodeFields ..⟩

theorem Laws.Encoding.setSkey (offset count : Nat) : Laws.Encoding.Statement (.setSkey offset count) := fun _ => by
  refine ⟨?_, fieldOpc_encodeFields ..⟩
  have := encodeFields_and_low 0x02 false 0 offset count 0xFFFFFFFF
  exact beq_iff_eq.mpr (this.trans (by simp only [Instr.opcode]; decide))

theorem Laws.Encoding.genKtab (offset count : Nat) : Laws.Encoding.Statement (.genKtab offset count) := fun _ => by
  refine ⟨?_, fieldOpc_encodeFields ..⟩
  have := encodeFields_and_low 0x03 false 0 offset count 0xFFFFFFFF
  exact beq_iff_eq.mpr (this.trans (by simp only [Instr.opcode]; decide))

theorem Laws.Encoding.encClient (offset count : Nat) (seq : Byte) (k2 : Bool) :
    Laws.Encoding.Statement (.encClient offset count seq k2) := fun _ => by
  refine ⟨?_, fieldOpc_encodeFields ..⟩
  have := encodeFields_and_low 0x10 k2 seq offset count 0xFF00FEFF
  refine beq_iff_eq.mpr (this.trans ?_)
  exact (by decide +kernel : ∀ (k : Bool) (a : Byte),
    encodeFields 0x10 k a 0 0 &&& (0xFF00FEFF : BitVec 32).zeroExtend 64 = Opcode.encClient.pattern) k2 seq

theorem Laws.Encoding.decClient (offset count : Nat) (k2 : Bool) :
    Laws.Encoding.Statement (.decClient offset count k2) := fun _ => by
  refine ⟨?_, fieldOpc_encodeFields ..⟩
  have := encodeFields_and_low 0x11 k2 0 offset count 0xFFFFFEFF
  exact beq_iff_eq.mpr (this.trans (by cases k2 <;> simp only [Instr.opcode] <;> decide))

theorem Laws.Encoding.encServer (offset count : Nat) (seq : Byte) (k2 : Bool) :
    Laws.Encoding.Statement (.encServer offset count seq k2) := fun _ => by
  refine ⟨?_, fieldOpc_encodeFields ..⟩
  have := encodeFields_and_low 0x12 k2 seq offset count 0xFF00FEFF
  refine beq_iff_eq.mpr (this.trans ?_)
  exact (by decide +kernel : ∀ (k : Bool) (a : Byte),
    encodeFields 0x12 k a 0 0 &&& (0xFF00FEFF : BitVec 32).zeroExtend 64 = Opcode.encServer.pattern) k2 seq

theorem Laws.Encoding.decServer (offset count : Nat) (k2 : Bool) :
    Laws.Encoding.Statement (.decServer offset count k2) := fun _ => by
  refine ⟨?_, fieldOpc_encodeFields ..⟩
  have := encodeFields_and_low 0x13 k2 0 offset count 0xFFFFFEFF
  exact beq_iff_eq.mpr (this.trans (by cases k2 <;> simp only [Instr.opcode] <;> decide))

end Sys2Proof
end

