-- ==== Sys2Proof/Laws/Run.lean ====
section
/-! SUPPORT. What a host move can do: it is a command, which ends, or the reset, or an edit of the host's side; an idle
block stays idle; and the outcome of a run is taken step by step. -/

namespace Sys2Proof.Machine

/-- Whatever an instruction does, it ends with `DONE = 1` and `BUSY = 0`, and the host's queue is kept. -/
theorem exec_ends {i : Instr} {s t : State} (h : exec i s = .next t) :
    t.busy = false ∧ t.done = true ∧ t.inbox = s.inbox := by
  rcases exec_cases h with ⟨e, -, rfl⟩ | h
  · exact ⟨rfl, rfl, rfl⟩
  · cases i with
    | setSeed => obtain ⟨_, rfl⟩ := h; exact ⟨rfl, rfl, rfl⟩
    | setSkey => cases h; exact ⟨rfl, rfl, rfl⟩
    | genKtab => cases h; exact ⟨rfl, rfl, rfl⟩
    | encClient => obtain ⟨-, rfl⟩ := h; exact ⟨rfl, rfl, rfl⟩
    | decClient => obtain ⟨-, rfl⟩ := h; exact ⟨rfl, rfl, rfl⟩
    | encServer => obtain ⟨-, rfl⟩ := h; exact ⟨rfl, rfl, rfl⟩
    | decServer => obtain ⟨-, rfl⟩ := h; exact ⟨rfl, rfl, rfl⟩

/-- A word written to `CMD` of an idle block always ends, whether it is legal or not. -/
theorem writeCmd_ends {s : State} (w : BitVec 64) (hs : s.busy = false) :
    ∃ t, writeCmd w s = .next t ∧ t.busy = false ∧ t.done = true ∧ t.inbox = s.inbox := by
  cases hd : decode w with
  | error e => exact ⟨_, writeCmd_of_error hs hd, rfl, rfl, rfl⟩
  | ok i =>
    obtain ⟨t, ht⟩ := exec_next i s.accept
    exact ⟨t, (writeCmd_of_decode hs hd).trans ht, exec_ends ht⟩

/-- A write of the input on an idle block answers the state it writes. -/
theorem inputWrite_next {s t u : State} (h : inputWrite s t = .next u) : u = t := by
  unfold inputWrite at h
  split at h <;> simp_all

/-- All that a host move can do which is neither a command nor a reset: it gives `IBUF`, `ILEN` and the host's answer a
value, the old one or another, and keeps every other field (R228). -/
def HostEdit (s t : State) : Prop := ∃ m n d, t = ((s.setIbuf m).setIlen n).answer d

/-- No change is a host edit. -/
theorem HostEdit.refl (s : State) : HostEdit s s := ⟨s.ibuf, s.ilen, s.hostData, rfl⟩

/-- A new input buffer is a host edit. -/
theorem HostEdit.setIbuf (s : State) (m : Memory) : HostEdit s (s.setIbuf m) := ⟨m, s.ilen, s.hostData, rfl⟩

/-- A new input length is a host edit. -/
theorem HostEdit.setIlen (s : State) (n : BitVec 16) : HostEdit s (s.setIlen n) := ⟨s.ibuf, n, s.hostData, rfl⟩

/-- An answer to the host is a host edit. -/
theorem HostEdit.answer (s : State) (d : BitVec 64) : HostEdit s (s.answer d) := ⟨s.ibuf, s.ilen, d, rfl⟩

/-- A loaded input is a host edit. -/
theorem HostEdit.loadInput (s : State) (bytes : List Byte) : HostEdit s (s.loadInput bytes) :=
  ⟨s.ibuf.writeBytes 0 bytes, BitVec.ofNat 16 bytes.length, s.hostData, rfl⟩

/-- Two host edits are one. -/
theorem HostEdit.trans {s t u : State} (h : HostEdit s t) (h' : HostEdit t u) : HostEdit s u := by
  obtain ⟨_, _, _, rfl⟩ := h
  obtain ⟨m, n, d, rfl⟩ := h'
  exact ⟨m, n, d, rfl⟩

/-- A byte written on the bus is a host edit. -/
theorem busWriteByte_edit {s t : State} {addr : Nat} {v : Byte} (h : busWriteByte addr v s = .next t) :
    HostEdit s t := by
  unfold busWriteByte at h
  split at h
  · cases inputWrite_next h; exact .setIlen ..
  · split at h
    · cases inputWrite_next h; exact .setIlen ..
    · split at h
      · cases inputWrite_next h; exact .setIbuf ..
      · cases h; exact .refl _

/-- Bytes written on the bus are a host edit. -/
theorem busWriteBytes_edit {s t : State} {addr : Nat} {bytes : List Byte} (h : busWriteBytes addr bytes s = .next t) :
    HostEdit s t := by
  induction bytes generalizing addr s with
  | nil => cases h; exact .refl _
  | cons b bs ih =>
    simp only [busWriteBytes] at h
    split at h
    next hu => exact (busWriteByte_edit hu).trans (ih h)
    all_goals cases h

/-- A read of the result window is a host edit. -/
theorem readResult_edit {s t : State} {k : Nat} (h : readResult k s = .next t) : HostEdit s t := by
  unfold readResult at h
  split at h
  · split at h <;> cases h
    exact .answer ..
  · cases h

/-- A move on an index of a buffer that answers a next state is the move on an index inside it. -/
theorem indexed_next {space : Space} {cap k : Nat} {inside : Host.Outcome State Fault Refusal} {t : State}
    (h : indexed space cap k inside = .next t) : inside = .next t := by
  unfold indexed at h
  split at h
  · exact h
  · cases h

/-- Loading the input, where it answers a next state, loads it. -/
theorem loadIbuf_next {s t : State} {bytes : List Byte} (h : loadIbuf bytes s = .next t) : t = s.loadInput bytes := by
  unfold loadIbuf at h
  split at h
  · exact inputWrite_next h
  · cases h

open Safety in
/-- A write to `CMD` in any of its forms is a write of some word. -/
theorem hostMove_of_isCommand {m : HostMove} (h : isCommand m = true) :
    ∃ w, ∀ s, hostMove m s = writeCmd w s := by
  cases m <;> simp only [isCommand, Bool.false_eq_true, beq_iff_eq, Bool.and_eq_true] at h
  case command w => exact ⟨w, fun _ => rfl⟩
  case writeReg n v => subst h; exact ⟨v, fun _ => rfl⟩
  case busWrite addr bytes => exact ⟨wordOfBytes bytes, fun s => by simp only [hostMove, busWrite, if_pos h]⟩

open Safety in
/-- Everything a host move can do: it writes a word to `CMD`, it is the reset, or it is a host edit. -/
theorem hostMove_cases {m : HostMove} {s t : State} (h : hostMove m s = .next t) :
    (isCommand m = true ∧ ∃ w, writeCmd w s = .next t) ∨ (m = .reset ∧ t = s.resetNow) ∨
      (isCommand m = false ∧ HostEdit s t) := by
  cases hm : isCommand m
  · cases m with
    | reset => cases h; exact .inr (.inl ⟨rfl, rfl⟩)
    | command w => cases hm
    | writeReg n v =>
      refine .inr (.inr ⟨rfl, ?_⟩)
      simp only [hostMove, writeReg] at h
      split at h
      · cases hm
      · cases inputWrite_next h; exact .setIlen ..
      · cases h; exact .refl _
    | readReg n => cases h; exact .inr (.inr ⟨rfl, .answer ..⟩)
    | writeIbuf k v => cases inputWrite_next (indexed_next h); exact .inr (.inr ⟨rfl, .setIbuf ..⟩)
    | readIbuf k => cases indexed_next h; exact .inr (.inr ⟨rfl, .answer ..⟩)
    | writeResult k v => cases indexed_next h; exact .inr (.inr ⟨rfl, .refl _⟩)
    | readResult k => exact .inr (.inr ⟨rfl, readResult_edit (indexed_next h)⟩)
    | busWrite addr bytes =>
      refine .inr (.inr ⟨rfl, ?_⟩)
      simp only [hostMove, busWrite] at h
      split at h
      · rename_i hc; simp [isCommand, hc.1, hc.2] at hm
      · split at h
        · cases h
        · exact busWriteBytes_edit h
    | busRead addr =>
      refine .inr (.inr ⟨rfl, ?_⟩)
      simp only [hostMove, busRead] at h
      split at h
      · cases h; exact .answer ..
      · split at h
        · cases h; exact .answer ..
        · split at h
          · exact readResult_edit h
          · cases h; exact .answer ..
    | loadIbuf bytes => cases loadIbuf_next h; exact .inr (.inr ⟨rfl, .loadInput ..⟩)
    | ibufFromResult =>
      refine .inr (.inr ⟨rfl, ?_⟩)
      simp only [hostMove, ibufFromResult] at h
      split at h
      · cases loadIbuf_next h; exact .loadInput ..
      · cases h
  · obtain ⟨w, hw⟩ := hostMove_of_isCommand hm
    exact .inl ⟨rfl, w, (hw s).symm.trans h⟩

open Safety in
/-- What a move of an idle block does to `BUSY`, `DONE` and the host's queue: the block is idle again, the queue is
kept, and after a command `DONE = 1`. -/
theorem hostMove_idle {m : HostMove} {s t : State} (hs : s.busy = false) (h : hostMove m s = .next t) :
    t.busy = false ∧ t.inbox = s.inbox ∧ (isCommand m = true → t.done = true) := by
  rcases hostMove_cases h with ⟨-, w, hw⟩ | ⟨rfl, rfl⟩ | ⟨hm, _, _, _, rfl⟩
  · obtain ⟨u, hu, hb, hd, hi⟩ := writeCmd_ends w hs
    cases hu.symm.trans hw
    exact ⟨hb, hi, fun _ => hd⟩
  · exact ⟨rfl, rfl, fun h => Bool.noConfusion h⟩
  · exact ⟨hs, rfl, fun h => by simp [hm] at h⟩

end Sys2Proof.Machine

namespace Sys2Proof.Safety

open Sys2Proof.Machine

/-- The observations of an outcome. -/
@[simp] theorem outcomeAt_commands (seen : List Observation) (s : State) : (outcomeAt seen s).commands = seen := rfl
/-- `STATUS` at the end of a run. -/
@[simp] theorem outcomeAt_status (seen : List Observation) (s : State) : (outcomeAt seen s).status = s.status := rfl
/-- `ILEN` at the end of a run. -/
@[simp] theorem outcomeAt_ilen (seen : List Observation) (s : State) : (outcomeAt seen s).ilen = s.ilen := rfl
/-- `OLEN` at the end of a run. -/
@[simp] theorem outcomeAt_olen (seen : List Observation) (s : State) : (outcomeAt seen s).olen = s.olen := rfl
/-- `SEED` at the end of a run. -/
@[simp] theorem outcomeAt_seed (seen : List Observation) (s : State) : (outcomeAt seen s).seed = s.seed := rfl

/-- A run starts with the moves to come. -/
@[simp] theorem runStart_inbox (moves : List HostMove) : (runStart moves).inbox = moves := rfl
/-- A run starts with the block idle. -/
@[simp] theorem runStart_busy (moves : List HostMove) : (runStart moves).busy = false := rfl

/-- An idle block with a move to come accepts a command exactly when the move writes `CMD`. -/
theorem acceptsCommand_of_move {s : State} {m : HostMove} {rest : List HostMove} (h : s.inbox = m :: rest)
    (hb : s.busy = false) : acceptsCommand s = isCommand m := by
  simp [acceptsCommand, h, hb]

/-- The outcome of steps that begins with a step to `t`. -/
theorem observeSteps_of_step {k : Nat} {seen : List Observation} {s t : State} (h : step s = .next t) :
    observeSteps (k + 1) seen s = observeSteps k (if acceptsCommand s then seen ++ [observe t] else seen) t := by
  simp only [observeSteps, h]

/-- Where there is an outcome of steps, the first of them answered a next state and the others had the outcome. -/
theorem observeSteps_succ {k : Nat} {seen : List Observation} {s : State} {o : RunOutcome}
    (h : observeSteps (k + 1) seen s = .next o) :
    ∃ t, step s = .next t ∧ observeSteps k (if acceptsCommand s then seen ++ [observe t] else seen) t = .next o := by
  cases hs : step s with
  | next t => exact ⟨t, rfl, (observeSteps_of_step hs).symm.trans h⟩
  | fault f => simp [observeSteps, hs] at h
  | refused r => simp [observeSteps, hs] at h

end Sys2Proof.Safety
end

