-- ==== Sys2Proof/Tests/Slice0.lean ====
section
/-! SUPPORT. Tests. Expected values come from 95_test_vectors.md and from the rules' own examples, never from the
model; the last part shows for every statement with hypotheses a state and operands that meet them together. -/

namespace Sys2Proof.Tests

open Sys2Proof.Machine Sys2Proof.Safety Sys2Proof.Claims

/-! ### Helpers -/

/-- `SKEY` of every vector that uses a static keystream: 41 .. 49 (95_test_vectors.md, conventions). -/
def testKey : Table 9 := tabulate 9 fun i => BitVec.ofNat 8 (0x41 + i)

/-- The reset state with that key and the input `bytes`. -/
def loaded (bytes : List Byte) : State := (State.reset.setSkey testKey).loadInput bytes

/-- A state with `len` input bytes that nothing has written, and a table (entry `i` is `i mod 256`) that is ready. -/
def ready (len : Nat) : State := (State.reset.setIlen (BitVec.ofNat 16 len)).setKtab (tabulate 1024 (BitVec.ofNat 8))

/-- A state with the host's moves to come. -/
def asked (moves : List HostMove) (s : State) : State := { s with inbox := moves }

/-- A state in the middle of an operation: none is reached by a step. -/
def busyWith (moves : List HostMove) : State := { State.reset with busy := true, inbox := moves }

/-- The error code and the result after an outcome. -/
def ending : Host.Outcome State Fault Refusal → Option (ErrCode × Option (List Byte))
  | .next t => some (t.err, t.resultBytes)
  | _ => none

/-- The error code after an outcome. -/
def errOf (o : Host.Outcome State Fault Refusal) : Option ErrCode := (ending o).map Prod.fst

/-- A field of the state after an outcome. -/
def after {α : Type} (f : State → α) : Host.Outcome State Fault Refusal → Option α
  | .next t => some (f t)
  | _ => none

/-- The word with the fields of the table of R70, most significant first. -/
abbrev word (count offset : BitVec 16) (rsv1 arg : BitVec 8) (rsv0 : BitVec 7) (k2 : BitVec 1)
    (opc : BitVec 8) : BitVec 64 :=
  count ++ offset ++ rsv1 ++ arg ++ rsv0 ++ k2 ++ opc

/-- The reason why a word is illegal. -/
def reason (w : BitVec 64) : Option DecodeError :=
  match decode w with
  | .ok _ => none
  | .error e => some e

/-! ### Well-formed and ill-formed terms -/

theorem test_wellFormed_largest_operands :
    (Instr.setSeed 255).WellFormed ∧ (Instr.setSkey 65535 65535).WellFormed ∧
    (Instr.genKtab 65535 65535).WellFormed ∧ (Instr.encClient 65535 65535 255 true).WellFormed ∧
    (Instr.decClient 65535 65535 true).WellFormed ∧ (Instr.encServer 65535 65535 255 true).WellFormed ∧
    (Instr.decServer 65535 65535 true).WellFormed := by decide

theorem test_wellFormed_refuses_seed_256 : ¬(Instr.setSeed 256).WellFormed := by decide

theorem test_wellFormed_refuses_offset_65536 :
    ¬(Instr.setSkey 65536 9).WellFormed ∧ ¬(Instr.genKtab 65536 0).WellFormed ∧
    ¬(Instr.encClient 65536 1 0 false).WellFormed ∧ ¬(Instr.decClient 65536 1 false).WellFormed ∧
    ¬(Instr.encServer 65536 1 0 false).WellFormed ∧ ¬(Instr.decServer 65536 1 false).WellFormed := by decide

theorem test_wellFormed_refuses_count_65536 :
    ¬(Instr.setSkey 0 65536).WellFormed ∧ ¬(Instr.genKtab 0 65536).WellFormed ∧
    ¬(Instr.encClient 0 65536 0 false).WellFormed ∧ ¬(Instr.decClient 0 65536 false).WellFormed ∧
    ¬(Instr.encServer 0 65536 0 false).WellFormed ∧ ¬(Instr.decServer 0 65536 false).WellFormed := by decide

/-! ### Decoding: words written out field by field from R70 and R72 -/

/-- `SET_SEED 9`. -/
theorem test_decode_setSeed :
    decode (word 0b0000000000000000 0b0000000000000000 0b00000000 0b00001001 0b0000000 0b0 0b00000001)
      = .ok (.setSeed 9) := by rfl

/-- `SET_SKEY 0, 9`. -/
theorem test_decode_setSkey :
    decode (word 0b0000000000001001 0b0000000000000000 0b00000000 0b00000000 0b0000000 0b0 0b00000010)
      = .ok (.setSkey 0 9) := by rfl

/-- `GEN_KTAB 0, 4`. -/
theorem test_decode_genKtab :
    decode (word 0b0000000000000100 0b0000000000000000 0b00000000 0b00000000 0b0000000 0b0 0b00000011)
      = .ok (.genKtab 0 4) := by rfl

/-- `ENC_CLIENT 2, 4, 255, 1`. -/
theorem test_decode_encClient :
    decode (word 0b0000000000000100 0b0000000000000010 0b00000000 0b11111111 0b0000000 0b1 0b00010000)
      = .ok (.encClient 2 4 255 true) := by rfl

/-- `DEC_CLIENT 0, 14, 1`. -/
theorem test_decode_decClient :
    decode (word 0b0000000000001110 0b0000000000000000 0b00000000 0b00000000 0b0000000 0b1 0b00010001)
      = .ok (.decClient 0 14 true) := by rfl

/-- `ENC_SERVER 0, 12, 200, 1`. -/
theorem test_decode_encServer :
    decode (word 0b0000000000001100 0b0000000000000000 0b00000000 0b11001000 0b0000000 0b1 0b00010010)
      = .ok (.encServer 0 12 200 true) := by rfl

/-- `DEC_SERVER 8, 5, 0` (95_test_vectors.md section 2.8). -/
theorem test_decode_decServer :
    decode (word 0b0000000000000101 0b0000000000001000 0b00000000 0b00000000 0b0000000 0b0 0b00010011)
      = .ok (.decServer 8 5 false) := by rfl

/-- The same word from its bytes on the bus, and from the table's numbering. -/
theorem test_decode_bytes_and_tableWord :
    decodeBytes [0x10, 0x00, 0x05, 0x00, 0x00, 0x00, 0x0A, 0x00] = .ok (.encClient 0 10 5 false) ∧
    decodeTableWord 64 0x000A000000050010 = some (.encClient 0 10 5 false) ∧
    decodeTableWord 64 0 = none := by decide

/-- The words of 95_test_vectors.md section 2.9 are the encodings of their assembly. -/
theorem test_encode_command_words :
    encode (.setSeed 0) = 0x0000000000000001 ∧ encode (.setSeed 9) = 0x0000000000090001 ∧
    encode (.setSkey 0 9) = 0x0009000000000002 ∧ encode (.genKtab 0 4) = 0x0004000000000003 ∧
    encode (.encClient 0 10 5 false) = 0x000A000000050010 ∧
    encode (.decClient 0 19 false) = 0x0013000000000011 ∧
    encode (.encServer 2 4 0 false) = 0x0004000200000012 ∧
    encode (.decServer 0 16 true) = 0x0010000000000113 ∧
    encode (.encClient 65535 65535 255 true) = 0xFFFFFFFF00FF0110 := by decide

/-- The assembler form of R76's example. -/
theorem test_assembler_text :
    (Instr.encClient 0 10 5 false).asmText = "ENC_CLIENT 0, 10, 5, 0" ∧
    assemble "ENC_CLIENT" [0, 10, 5, 0] = some (.encClient 0 10 5 false) ∧
    assemble "ENC_CLIENT" [0, 10, 5, 2] = none ∧ assemble "ENC_CLIENT" [0, 10, 256, 0] = none := by decide +kernel

/-- The illegal words of 95_test_vectors.md section 2.8, each with the name of its reason. -/
theorem test_decode_rejects_by_name :
    reason 0x0000000000000000 = some .unknownOpcode ∧ reason 0x000A000000050210 = some .rsv0NotZero ∧
    reason 0x000A000001050010 = some .rsv1NotZero ∧ reason 0x000A000000050011 = some .unusedFieldNotZero ∧
    reason 0x0000000100070001 = some .unusedFieldNotZero ∧ reason 0x0009000000000102 = some .unusedFieldNotZero ∧
    decodeBytes [0x01] = .error .notOneWord := ⟨rfl, rfl, rfl, rfl, rfl, rfl, rfl⟩

/-! ### The functions -/

/-- The boundary values of the ten tables (95_test_vectors.md section 2.1). -/
theorem test_salt_boundary_values :
    (List.finRange 10).map (fun s => [0, 1, 127, 128, 255].map fun i => (trunc8 (saltFormula s i)).toNat) =
      [[0, 1, 127, 128, 255], [128, 127, 64, 192, 0], [255, 254, 128, 127, 0], [255, 1, 64, 191, 128],
       [0, 0, 49, 64, 225], [0, 2, 254, 0, 254], [255, 253, 1, 255, 1], [255, 253, 1, 0, 254],
       [0, 2, 254, 255, 1], [255, 30, 255, 255, 30]] := by decide +kernel

/-- The corner cases of R111. -/
theorem test_prg_corner_cases :
    prgNext 0 = (0x00269EC3, 38) ∧ prgNext 0xFFFFFFFF = (0x00235AC6, 35) ∧
    prgNext 0x80000000 = (0x80269EC3, 38) ∧ prgNext 0x7FFFFFFF = (0x80235AC6, 35) := by decide +kernel

/-- The trailers of the first two steps (95_test_vectors.md section 2.2). -/
theorem test_trailers :
    trailer 0x0129 100 0x7470 0x23 = [0x59, 0x47, 0x75] ∧ trailer 0x0129 100 0x6474 0x24 = [0x5D, 0x40, 0x65] ∧
    trailer 0x4923 100 0x7470 0x23 = [0x53, 0x47, 0x3D] ∧ trailer 0x4923 100 0x6474 0x24 = [0x57, 0x40, 0x2D] := by
  decide

/-- The two characters of the example of R120. -/
theorem test_hex_of_fb : hex [0xFB] = [0x66, 0x62] := by decide

/-- The index examples of R138. -/
theorem test_pkey_indices :
    (List.range 9).map (pkeyIndex 297 100) = [297, 66, 877, 682, 505, 346, 205, 82, 1001] ∧
    (List.range 9).map (pkeyIndex 65535 255) = [1023, 521, 37, 595, 147, 741, 329, 959, 583] := by decide +kernel

/-- The example of R145: twenty zero bytes, seed 0, sequence 5. -/
theorem test_xform_twenty_zero_bytes :
    xform (List.replicate 20 0) 0 20 testKey 5 (saltGen 0) =
      [0x44, 0x47, 0x46, 0x41, 0x40, 0x43, 0x42, 0x4D, 0x4C, 0x45, 0x46, 0x47, 0x40, 0x41, 0x42, 0x43, 0x4C, 0x4D,
       0x46, 0x45] := by decide +kernel

/-- The four positions of R150, in its order. -/
theorem test_checksum_positions (m : List Byte) :
    checksum m = [(Config.h128 m)[13], (Config.h128 m)[3], (Config.h128 m)[11], (Config.h128 m)[7]] := rfl

/-! ### The operations -/

/-- The example of R103. -/
theorem test_setSeed_seven :
    after (fun t => (t.seed, t.salt[0], t.salt[127], t.salt[128], t.salt[200], t.salt[255]))
      (exec (.setSeed 7) State.reset) = some (7, 0xFF, 0x01, 0x00, 0x90, 0xFE) := by decide +kernel

/-- `SET_SEED 10` and `SET_SEED 255` (95_test_vectors.md section 2.1). -/
theorem test_setSeed_out_of_range :
    ending (exec (.setSeed 10) State.reset) = some (.seedRange, some []) ∧
    errOf (exec (.setSeed 255) State.reset) = some .seedRange := by decide

/-- The example of R130. -/
theorem test_setSkey_loads_the_key :
    after (fun t => t.skey.toList)
      (exec (.setSkey 0 9) (State.reset.loadInput [0x41, 0x42, 0x43, 0x44, 0x45, 0x46, 0x47, 0x48, 0x49])) =
      some [0x41, 0x42, 0x43, 0x44, 0x45, 0x46, 0x47, 0x48, 0x49] := by decide +kernel

/-- The errors of R130: the length is tested before the range. -/
theorem test_setSkey_errors :
    errOf (exec (.setSkey 9 8) (loaded [1, 2, 3])) = some .keyLength ∧
    errOf (exec (.setSkey 0 9) (loaded [1, 2, 3])) = some .outOfRange := by decide

/-- The empty name at the end of the input is accepted (R127). -/
theorem test_genKtab_empty_name :
    after (fun t => (t.err, t.ktabValid, t.olen)) (exec (.genKtab 3 0) (loaded [1, 2, 3]))
      = some (.none, true, 0) := by decide +kernel

/-- A name that does not lie inside the input (R127). -/
theorem test_genKtab_error :
    after (fun t => (t.err, t.ktabValid)) (exec (.genKtab 2 2) (loaded [1, 2, 3]))
      = some (.outOfRange, false) := by decide +kernel

/-- Program 1 of 95_test_vectors.md, step 5: all but the four checksum bytes, which depend on the digest. -/
theorem test_encClient_program_1 :
    let o := exec (.encClient 0 10 5 false) (loaded [0x10, 0x20, 0x30, 0x40, 0x50, 0x60, 0x70, 0x80, 0x90, 0xA0])
    after (fun t => (t.err, t.olen, t.prg)) o = some (.none, 19, 0x0029E2C0) ∧
    after (fun t => t.resultBytes.map (List.take 12)) o =
      some (some [0x10, 0x05, 0x64, 0x77, 0x06, 0x11, 0x20, 0x33, 0xC2, 0xDD, 0xEC, 0x45]) ∧
    after (fun t => t.resultBytes.map (List.drop 16)) o = some (some [0x59, 0x47, 0x75]) := by decide +kernel

/-- The errors of `ENC_CLIENT` in 95_test_vectors.md section 2.8, and its two capacity bounds. -/
theorem test_encClient_errors :
    [exec (.encClient 10 0 5 false) (ready 10), exec (.encClient 5 6 5 false) (ready 10),
     exec (.encClient 3 0 5 false) (ready 10), exec (.encClient 0 1 5 true) (loaded [0x7F]),
     exec (.encClient 0 65524 5 false) (ready 65535), exec (.encClient 0 65523 5 true) (ready 65535)].map errOf =
      [some .outOfRange, some .outOfRange, some .countTooSmall, some .ktabNotReady, some .capacity,
       some .capacity] := by decide +kernel

/-- The first row of the table of arbitrary bytes in 95_test_vectors.md section 2.7. -/
theorem test_decClient_arbitrary_bytes :
    ending (exec (.decClient 0 12 false) (loaded [1, 2, 3, 4, 5, 6, 7, 8, 9, 10, 11, 12])) =
      some (.none, some [0x01, 0x40, 0x44]) := by decide +kernel

/-- The errors of `DEC_CLIENT` in 95_test_vectors.md section 2.8, and its capacity bound. -/
theorem test_decClient_errors :
    [exec (.decClient 0 9 false) (ready 10), exec (.decClient 0 10 true) (loaded [1, 2, 3, 4, 5, 6, 7, 8, 9, 10]),
     exec (.decClient 0 65533 false) (ready 65535)].map errOf =
      [some .countTooSmall, some .countTooSmall, some .capacity] := by decide +kernel

/-- Program 3 of 95_test_vectors.md, step 6: `OFFSET` is 2, and the tag is that of index 0. -/
theorem test_encServer_program_3 :
    ending (exec (.encServer 2 4 0 false)
      ((loaded [0xAA, 0xBB, 0x0F, 0x01, 0x02, 0x03]).setSalt 2 (saltGen 2))) =
      some (.none, some [0xAA, 0x00, 0xBF, 0xBF, 0xBF, 0x5D, 0x40, 0x65]) := by decide +kernel

/-- The smallest frame of 95_test_vectors.md section 2.7, and the capacity bound. -/
theorem test_encServer_smallest_and_capacity :
    ending (exec (.encServer 0 1 9 false) (loaded [0x7F])) = some (.none, some [0x7F, 0x09, 0x5D, 0x40, 0x65]) ∧
    errOf (exec (.encServer 0 65529 9 true) (ready 65535)) = some .capacity := by decide +kernel

/-- The third row of the table of arbitrary bytes in 95_test_vectors.md section 2.7. -/
theorem test_decServer_arbitrary_bytes :
    ending (exec (.decServer 0 12 false) (loaded [1, 2, 3, 4, 5, 6, 7, 8, 9, 10, 11, 12])) =
      some (.none, some [0x01, 0x40, 0x44, 0x44, 0x40, 0x40, 0x4C, 0x4C]) := by decide +kernel

/-- With `K2 = 1` the key bytes are those at the indices 297, 66 and 877 of R138, in a table whose entry `i` is
`i mod 256`: `a = 0x0129`, `b = 0x64` come from the trailer 5D 40 65 (R166); 10 ^ 05 ^ 29 ^ 00 = 3C, and so on. -/
theorem test_decServer_per_packet_key :
    ending (exec (.decServer 0 8 true) ((ready 8).loadInput [0x33, 0x05, 0x10, 0x20, 0x30, 0x5D, 0x40, 0x65])) =
      some (.none, some [0x33, 0x3C, 0x67, 0x58]) := by decide +kernel

/-! ### The host port -/

/-- The table of R190. -/
theorem test_error_codes :
    [ErrCode.none, .seedRange, .keyLength, .outOfRange, .countTooSmall, .capacity, .ktabNotReady, .illegalCommand].map
      ErrCode.code = [0, 1, 2, 3, 4, 5, 6, 7] := by decide

/-- `.ibuf` on an input of three bytes (R77): two bytes and `ILEN` are replaced, and the third byte is kept. -/
theorem test_load_input_replaces_its_bytes_only :
    after (fun t => (t.ilen, t.inputBytes 0 3)) (step (asked [.loadIbuf [7, 8]] (loaded [1, 2, 3]))) =
      some (2, [7, 8, 3]) := by decide +kernel

/-- The word placed for the next step is the command that the step runs. -/
theorem test_withFetchWord_runs_the_word :
    after (fun t => (t.seed, t.status)) (step (State.reset.withFetchWord 64 0x0000000000070001)) = some (7, 0x02) := by
  decide +kernel

/-- An illegal command leaves `ERR = 7` in bits 7:4 and `DONE` in bit 1 (R32, R195). -/
theorem test_illegal_command_status :
    after State.status (step (State.reset.withFetchWord 64 0)) = some 0x72 := by decide +kernel

/-- A read of the result window before the first operation is refused (R53). -/
theorem test_early_result_read_is_refused :
    step (asked [.readResult 0] State.reset) = .refused (.unspecifiedResult 0) := rfl

/-- `ILEN` written byte by byte on the bus is little-endian (R54, R56). -/
theorem test_bus_writes_ilen_little_endian :
    after State.ilen (step (asked [.busWrite 0x10 [0x34, 0x12]] State.reset)) = some 0x1234 := by decide +kernel

/-- The outcome of a run (R229): the smallest frame of 95_test_vectors.md section 2.7 and then `SET_SEED 10`, an
error of section 2.1; at the end `ERR` is 1 and `DONE` set (R32), `ILEN` is 1, `OLEN` and `SEED` are 0. -/
theorem test_run_outcome :
    (match runOutcome [.loadIbuf [0x7F], .command (encode (.encServer 0 1 9 false)), .command (encode (.setSeed 10))] with
      | .next o => some o
      | _ => none) =
      some ⟨[⟨.none, 5, some [0x7F, 0x09, 0x5D, 0x40, 0x65]⟩, ⟨.seedRange, 0, none⟩], 0x12, 1, 0, 0⟩ := by
  decide +kernel

/-! ### Witnesses: the hypotheses of every statement are met together -/

/-- A host that has set seed 2 and has a command to come. -/
def seeded (moves : List HostMove) : State := asked moves ((State.reset.setSalt 2 (saltGen 2)).deliver [])

/-- The seeded state meets the invariant. -/
theorem seeded_inv (moves : List HostMove) : Inv (seeded moves) where
  salt_of_seed := ⟨show (2#4).toNat < 10 by decide, rfl⟩
  ktab_of_name := fun h => (Bool.false_ne_true h).elim
  scratch_is_result := rfl
  olen_fits := show (0#16).toNat ≤ 65532 by decide
  ibuf_wf := State.reset_buffers_wf.1
  error_empty := fun _ => rfl
  fresh_empty := fun h => (Bool.false_ne_true h.symm).elim
  idle := rfl

/-- `EveryLegalWordIsAnEncoding`: a legal word, whose instruction is well formed
(`DecodingAnEncodingGivesTheInstruction`, `AssemblerFormAssemblesToTheInstruction`). -/
theorem test_witness_decoded_word : ∃ w i, decode w = .ok i ∧ i = .encClient 2 4 255 true ∧ i.WellFormed :=
  ⟨0x0004000200FF0110, .encClient 2 4 255 true, rfl, rfl, by decide⟩

/-- `StepRunsTheDecodedInstruction`. -/
theorem test_witness_stepRuns :
    ∃ s : State, ∃ w rest i, s.inbox = .command w :: rest ∧ s.busy = false ∧ decode w = .ok i ∧ i = .setSeed 9 :=
  ⟨asked [.command 0x0000000000090001] State.reset, _, _, _, rfl, rfl, rfl, rfl⟩

/-- `UnmatchedWordEndsInIllegalCommand`. -/
theorem test_witness_unmatched_word :
    ∃ s : State, ∃ w rest, s.inbox = HostMove.command w :: rest ∧ s.busy = false ∧ ∀ o : Opcode, o.selects w = false :=
  ⟨asked [.command 0x000A000000050210] State.reset, _, _, rfl, rfl, fun o => by cases o <;> rfl⟩

/-- `CommandWrittenWhileBusyIsDropped`. -/
theorem test_witness_command_while_busy :
    ∃ s : State, ∃ w rest, s.inbox = HostMove.command w :: rest ∧ s.busy = true :=
  ⟨busyWith [.command 0x0000000000090001], _, _, rfl, rfl⟩

/-- `InputWrittenWhileBusyIsRefused`: the byte and the register, at the last index. -/
theorem test_witness_input_while_busy :
    (∃ s : State, ∃ k v rest, s.busy = true ∧ k < 65535 ∧ s.inbox = .writeIbuf k v :: rest) ∧
    ∃ s : State, ∃ n rest, s.busy = true ∧ s.inbox = .writeReg 2 n :: rest :=
  ⟨⟨busyWith [.writeIbuf 65534 7], 65534, 7, [], rfl, by decide, rfl⟩, busyWith [.writeReg 2 10], 10, [], rfl, rfl⟩

/-- The bus write of the same statement: one whose last byte alone is of `ILEN`, the high byte of `ILEN` alone, and
one whose first byte alone is of `IBUF`. -/
theorem test_witness_bus_input_while_busy :
    (∃ s : State, ∃ addr bytes rest, s.busy = true ∧ s.inbox = .busWrite addr bytes :: rest ∧ 8 ≤ addr ∧
      ∃ j < bytes.length, addr + j = 0x10) ∧
    (∃ s : State, ∃ addr bytes rest, s.busy = true ∧ s.inbox = .busWrite addr bytes :: rest ∧ 8 ≤ addr ∧
      ∃ j < bytes.length, addr + j = 0x11) ∧
    ∃ s : State, ∃ addr bytes rest, s.busy = true ∧ s.inbox = .busWrite addr bytes :: rest ∧ 8 ≤ addr ∧
      ∃ j < bytes.length, 0x10000 ≤ addr + j ∧ addr + j ≤ 0x1FFFE :=
  ⟨⟨busyWith [.busWrite 0xF [0, 0x34]], 0xF, [0, 0x34], [], rfl, rfl, by decide, 1, by decide, rfl⟩,
    ⟨busyWith [.busWrite 0x11 [0x12]], 0x11, [0x12], [], rfl, rfl, by decide, 0, by decide, rfl⟩,
    busyWith [.busWrite 0x1FFFE [7, 8]], 0x1FFFE, [7, 8], [], rfl, rfl, by decide, 0, by decide, by decide⟩

/-- The directives of the same statement: a load, a copy of a result, and a copy where the one specified byte is not
all of what `OLEN` counts. -/
theorem test_witness_directives_while_busy :
    (∃ s : State, ∃ bytes rest, s.busy = true ∧ s.inbox = .loadIbuf bytes :: rest ∧ bytes.length ≤ 65535) ∧
    (∃ s : State, ∃ rest r, s.busy = true ∧ s.inbox = HostMove.ibufFromResult :: rest ∧ s.resultBytes = some r) ∧
    ∃ s : State, ∃ rest, s.busy = true ∧ s.inbox = HostMove.ibufFromResult :: rest ∧ s.resultBytes = none :=
  ⟨⟨busyWith [.loadIbuf [1, 2]], [1, 2], [], rfl, rfl, by decide⟩, ⟨busyWith [.ibufFromResult], [], [], rfl, rfl, rfl⟩,
    { busyWith [.ibufFromResult] with olen := 1 }, [], rfl, rfl, by decide⟩

/-- `IdleBlockKeepsItsState`. -/
theorem test_witness_idle : ∃ s : State, s.inbox = [] := ⟨State.reset, rfl⟩

/-- `ResetMoveRestoresTheStatedValues`: also in a busy state. -/
theorem test_witness_reset : ∃ s : State, ∃ rest, s.inbox = HostMove.reset :: rest ∧ s.busy = true :=
  ⟨busyWith [.reset], _, rfl, rfl⟩

/-- `EveryStepKeepsTheInvariant`. -/
theorem test_witness_step_from_inv : ∃ s : State, ∃ t, Inv s ∧ s.seed = 2 ∧ step s = .next t ∧ t.seed = 7 :=
  ⟨seeded [.command 0x0000000000070001], _, seeded_inv _, rfl, rfl, rfl⟩

/-- `DutifulHostIsNeverStopped`: a move with a duty, kept at the last index of the input buffer. -/
theorem test_witness_dutiful_host : ∃ s : State, ∃ m rest, Inv s ∧ s.inbox = m :: rest ∧ hostDuty m s ∧ m = .writeIbuf 65534 1 :=
  ⟨seeded [.writeIbuf 65534 1], _, _, seeded_inv _, rfl, show 65534 < 65535 by decide, rfl⟩

/-- A host that keeps its duty on the result window. -/
theorem test_witness_dutiful_window_read :
    ∃ s : State, ∃ k, mayReadResult s k ∧ k = 4 :=
  ⟨(loaded []).deliver [0x7F, 0x09, 0x5D, 0x40, 0x65], 4, ⟨rfl, rfl, by decide⟩, rfl⟩

/-- `SetSeedLoadsTheTableOrEndsInSeedRange`: the boundary seeds of both clauses. -/
theorem test_witness_setSeed : (9 : Nat) < 10 ∧ 9 < (10 : Nat) := by decide

/-- The bounded indices of `HexTextHasTheHighNibbleFirst`, `KeystreamTableBlocksChain` and
`PerPacketKeyReadsTheFormulasIndices` at their last value. -/
theorem test_witness_last_indices :
    15 < 16 ∧ 0 < ([0xFB] : List Byte).length ∧ 30 < 31 ∧ 8 < 9 := by decide

/-- `SetSkeyLoadsNineBytesOrReportsWhy`: the three clauses at their boundaries. -/
theorem test_witness_setSkey :
    (∃ s : State, 0 + 9 ≤ s.ilen.toNat) ∧ (∃ count : Nat, count ≠ 9) ∧ ∃ s : State, s.ilen.toNat < 1 + 9 :=
  ⟨⟨ready 9, by decide⟩, ⟨8, by decide⟩, ready 9, by decide⟩

/-- `GenKtabBuildsTheHashChainOrEndsOutOfRange`: the empty name at the end of the input, and one byte too many. -/
theorem test_witness_genKtab : (∃ s : State, 9 + 0 ≤ s.ilen.toNat) ∧ ∃ s : State, s.ilen.toNat < 9 + 1 :=
  ⟨⟨ready 9, by decide⟩, ready 9, by decide⟩

/-- `KeystreamTableIsLowercaseHexText`: the table has a byte. -/
theorem test_witness_table_byte : ∃ b, b ∈ (ktabGen []).toList :=
  ⟨(ktabGen [])[0], by simp⟩

/-- `GeneratorStepsOncePerSuccessfulEncrypt`, `NoOperationWritesTheInputBuffer` and `OnlyEncryptReadsTheGenerator`: an
encrypt that ends without error, and another instruction. -/
theorem test_witness_generator :
    (∃ i, ∃ s t : State, exec i s = .next t ∧ isEncrypt i = true ∧ t.err = .none) ∧
    ∃ i, ∃ s t : State, isEncrypt i = false ∧ exec i s = .next t ∧ t.err = .none :=
  ⟨⟨.encServer 0 1 9 false, loaded [0x7F], _, rfl, rfl, rfl⟩, .setSeed 7, loaded [], _, rfl, rfl, rfl⟩

/-- `TransformXorsTheMaskInsideItsRangeOnly`: a range inside a buffer, a byte before it and one after it. -/
theorem test_witness_transform :
    ∃ (buf : List Byte) (off cnt : Nat), off + cnt ≤ buf.length ∧ 0 < cnt ∧ 0 < off ∧ off + cnt ≤ 3 ∧ 3 < buf.length :=
  ⟨[1, 2, 3, 4], 1, 2, by decide⟩

/-- `TrailerBytesAndTheirInverse`. -/
theorem test_witness_trailer : ∃ a b xa xb t0 t1 t2, trailer a b xa xb = [t0, t1, t2] :=
  ⟨0x0129, 100, 0x7470, 0x23, 0x59, 0x47, 0x75, by decide⟩

/-- `EncClientDeliversTheClientFrame`: the smallest and the largest payload, with and without the table. -/
theorem test_witness_encClient :
    RegionAccepted (ready 1) 0 1 1 (1 + 9 + true.toNat) true ∧
    RegionAccepted (ready 65535) 0 65523 1 (65523 + 9 + false.toNat) false ∧
    RegionAccepted (ready 65535) 13 65522 1 (65522 + 9 + true.toNat) true := by decide

/-- `EncServerDeliversTheServerFrame`: the smallest and the largest payload. -/
theorem test_witness_encServer :
    RegionAccepted (ready 10) 9 1 1 (1 + 4) true ∧ RegionAccepted (ready 65535) 7 65528 1 (65528 + 4) false := by
  decide

/-- `DecClientDeliversThePayload`: the smallest and the largest frame. -/
theorem test_witness_decClient :
    RegionAccepted (ready 11) 0 11 (10 + true.toNat) 11 true ∧
    RegionAccepted (ready 65535) 3 65532 (10 + false.toNat) 65532 false := by decide

/-- `DecServerDeliversThePayload`: the smallest and the largest frame. -/
theorem test_witness_decServer :
    RegionAccepted (ready 5) 0 5 5 5 true ∧ RegionAccepted (ready 65535) 3 65532 5 65532 false := by decide

/-- `ErrorsLeaveTheEngineAsItWas`. -/
theorem test_witness_error : ∃ i, ∃ s t : State, exec i s = .next t ∧ t.err ≠ .none :=
  ⟨.setSeed 10, loaded [1], _, rfl, by decide⟩

/-- `ConfigurationChangesOnlyByItsOperation`: an instruction that is none of the three, in a state with a table. -/
theorem test_witness_configuration :
    ∃ i, ∃ s t : State, exec i s = .next t ∧ (∀ seed, i ≠ .setSeed seed) ∧ (∀ o c, i ≠ .setSkey o c) ∧
      (∀ o c, i ≠ .genKtab o c) ∧ s.ktabValid = true :=
  ⟨.decServer 0 5 false, ready 5, _, rfl, by simp, by simp, by simp, rfl⟩

/-- `DataOperationUsesOnlyTheSelectedKeystream`: a data operation for each value of `K2`. -/
theorem test_witness_dataOps :
    (∃ i, ∃ s t : State, exec i s = .next t ∧ IsDataOp i false) ∧ ∃ i, ∃ s t : State, exec i s = .next t ∧ IsDataOp i true :=
  ⟨⟨.decClient 0 10 false, ready 10, _, rfl, .inr (.inl ⟨_, _, rfl⟩)⟩,
    .encServer 0 5 9 true, ready 5, _, rfl, .inr (.inr (.inl ⟨_, _, _, rfl⟩))⟩

/-- `DecClientNeverReadsTheChecksum`: two input buffers that differ in the first checksum byte alone. -/
theorem test_witness_checksum :
    ∃ s : State, ∃ m, (∀ k, k < 0 + 10 - 7 ∨ 0 + 10 - 3 ≤ k → (State.setIbuf s m).inputByte k = s.inputByte k) ∧
      (s.setIbuf m).inputByte 3 ≠ s.inputByte 3 ∧ ∃ t, exec (.decClient 0 10 false) s = .next t :=
  ⟨loaded [1, 2, 3, 4, 5, 6, 7, 8, 9, 10], (loaded [1, 2, 3, 4, 5, 6, 7, 8, 9, 10]).ibuf.write 3 0xFF,
    fun k hk => by simp only [State.inputByte, State.setIbuf_ibuf, Memory.read_write_other _ _ (show k ≠ 3 by omega),
      State.setIbuf_ibufFree],
    by decide +kernel, _, rfl⟩

/-- The input buffer of a state into which the host has loaded a frame is that frame. -/
theorem loadInput_inputIs (s : State) {f : List Byte} (h : f.length ≤ Config.ibufCap) : InputIs (s.loadInput f) f :=
  ⟨State.loadInput_ilen_toNat s h, fun k hk => by rw [State.loadInput_inputByte s hk, List.getElem?_eq_getElem hk]⟩

/-- `ClientRoundTripReturnsThePayload`, with the largest payload: two engines with the same tables, the second with
another generator state. -/
theorem test_witness_client_roundTrip :
    ∃ s1 s2 t1 : State, ∃ f, SameKeys s1 s2 true ∧ 1 ≤ s1.ilen.toNat ∧ s1.ilen.toNat = 65523 - true.toNat ∧
      exec (.encClient 0 s1.ilen.toNat 5 true) s1 = .next t1 ∧ t1.resultBytes = some f ∧ InputIs s2 f ∧
      s2.prg ≠ s1.prg := by
  have hl := clientFrame_length (ready 65522) Config.hdrBase 0 5 true (show 1 ≤ 65522 by decide)
  have hn : (ready 65522).ilen.toNat = 65522 := by decide
  refine ⟨ready 65522, ((ready 65522).setPrg 0).loadInput (clientFrame (ready 65522) Config.hdrBase 0 65522 5 true), _, _,
    ⟨rfl, rfl, fun _ => ⟨rfl, rfl, rfl⟩⟩, by decide, by decide, rfl, ?_, loadInput_inputIs _ ?_, by decide⟩
  · rw [hn]
    exact State.deliver_resultBytes _ (by rw [hl]; decide)
  · rw [hl]; decide

/-- `ServerRoundTripReturnsThePayload`, with the smallest payload. -/
theorem test_witness_server_roundTrip :
    ∃ s1 s2 t1 : State, ∃ f, SameKeys s1 s2 false ∧ s1.ilen.toNat = 1 ∧
      exec (.encServer 0 s1.ilen.toNat 9 false) s1 = .next t1 ∧ t1.resultBytes = some f ∧ InputIs s2 f :=
  ⟨loaded [0x7F], (loaded []).loadInput [0x7F, 0x09, 0x5D, 0x40, 0x65], _, _,
    ⟨rfl, rfl, fun h => absurd h (by decide)⟩, by decide, rfl, by decide +kernel, loadInput_inputIs _ (by decide)⟩

/-- `RoundTripOfARegionReplacesItsFirstByte`, in both directions, at the end of the input. -/
theorem test_witness_region_roundTrip :
    RegionAccepted (ready 10) 9 1 1 (1 + 9 + true.toNat) true ∧ RegionAccepted (ready 10) 9 1 1 (1 + 4) false := by
  decide

/-- The two hypotheses on the frame and the server clause of the same statement, together. -/
theorem test_witness_region_roundTrip_frame :
    ∃ s1 s2 t1 : State, ∃ f, SameKeys s1 s2 false ∧ RegionAccepted s1 2 4 1 (4 + 4) false ∧
      exec (.encServer 2 4 0 false) s1 = .next t1 ∧ t1.resultBytes = some f ∧ InputIs s2 f :=
  ⟨loaded [0xAA, 0xBB, 0x0F, 0x01, 0x02, 0x03],
    (loaded []).loadInput (serverFrame (loaded [0xAA, 0xBB, 0x0F, 0x01, 0x02, 0x03]) .absolute 2 4 0 false), _, _,
    ⟨rfl, rfl, fun h => absurd h (by decide)⟩, by decide, rfl,
    State.deliver_resultBytes _ (by rw [serverFrame_length _ _ _ _ _ (by decide)]; decide),
    loadInput_inputIs _ (by rw [serverFrame_length _ _ _ _ _ (by decide)]; decide)⟩

/-- The same for the client clause, at the end of the input and with the table. -/
theorem test_witness_region_roundTrip_client_frame :
    ∃ s1 s2 t1 : State, ∃ f, SameKeys s1 s2 true ∧ RegionAccepted s1 9 1 1 (1 + 9 + true.toNat) true ∧
      exec (.encClient 9 1 0 true) s1 = .next t1 ∧ t1.resultBytes = some f ∧ InputIs s2 f :=
  ⟨ready 10, (ready 10).loadInput (clientFrame (ready 10) Config.hdrBase 9 1 0 true), _, _,
    ⟨rfl, rfl, fun _ => ⟨rfl, rfl, rfl⟩⟩, by decide, rfl,
    State.deliver_resultBytes _ (by rw [clientFrame_length _ _ _ _ _ (by decide)]; decide),
    loadInput_inputIs _ (by rw [clientFrame_length _ _ _ _ _ (by decide)]; decide)⟩

/-- `ThreeHostMovesRoundTripTheInput`, with the largest payload. -/
theorem test_witness_three_moves :
    ∃ (s : State) (rest : List HostMove), s.busy = false ∧ 1 ≤ s.ilen.toNat ∧ s.ilen.toNat = 65523 - true.toNat ∧
      s.ktabValid = true ∧
      s.inbox = .command (encode (.encClient 0 s.ilen.toNat 5 true)) :: .ibufFromResult ::
        .command (encode (.decClient 0 (s.ilen.toNat + 9 + true.toNat) true)) :: rest :=
  ⟨asked [.command (encode (.encClient 0 65522 5 true)), .ibufFromResult,
    .command (encode (.decClient 0 65532 true))] (ready 65522), [], rfl, by decide, by decide, rfl, by decide⟩

/-- `RegistersReadAndWriteAsListed`: the four clauses. -/
theorem test_witness_registers :
    (∃ s : State, ∃ rest, s.inbox = HostMove.readReg 4 :: rest) ∧ (∃ s : State, ∃ v rest, s.inbox = HostMove.writeReg 1 v :: rest) ∧
    (∃ s : State, ∃ v rest, s.inbox = HostMove.writeReg 2 v :: rest ∧ s.busy = false) ∧
    ∃ s : State, ∃ v rest, s.inbox = HostMove.writeReg 0 v :: rest :=
  ⟨⟨seeded [.readReg 4], _, rfl⟩, ⟨seeded [.writeReg 1 0], _, _, rfl⟩, ⟨seeded [.writeReg 2 9], _, _, rfl, rfl⟩,
    seeded [.writeReg 0 0x0000000000070001], _, _, rfl⟩

/-- `ResultWindowShowsTheResultOnly`: the last byte of a result, the index after it, and a write of the window's last
index. -/
theorem test_witness_result_window :
    (∃ s : State, ∃ r v rest, s.inbox = HostMove.readResult 1 :: rest ∧ s.done = true ∧ s.err = .none ∧
      s.resultBytes = some r ∧ r[1]? = some v) ∧
    (∃ s : State, ∃ rest, s.inbox = HostMove.readResult 2 :: rest ∧ s.done = true ∧ s.err = .none ∧ s.olen.toNat ≤ 2) ∧
    ∃ s : State, ∃ v rest, s.inbox = HostMove.writeResult 65531 v :: rest ∧ 65531 < 65532 :=
  ⟨⟨asked [.readResult 1] ((loaded []).deliver [0x7F, 0x09]), [0x7F, 0x09], 0x09, [], rfl, rfl, rfl, rfl, rfl⟩,
    ⟨asked [.readResult 2] ((loaded []).deliver [0x7F, 0x09]), [], rfl, rfl, rfl, by decide⟩,
    seeded [.writeResult 65531 1], 1, [], rfl, by decide⟩

/-- `BusReadsFollowTheAddressMap`: an address of each clause, at a boundary. -/
theorem test_witness_bus_reads :
    (∃ n j, n < 5 ∧ j < 8 ∧ 0x27 = 8 * n + j) ∧ (∃ k < 65535, 0x1FFFE = 0x10000 + k) ∧
    (∃ k < 65532, 0x2FFFB = 0x20000 + k) ∧ (0x28 ≤ 0x28 ∧ 0x28 < 0x10000) ∧ 0x2FFFC ≤ 0x2FFFC ∧
    ∃ s : State, ∃ rest, s.inbox = HostMove.busRead 0x27 :: rest :=
  ⟨⟨4, 7, by decide⟩, ⟨65534, by decide⟩, ⟨65531, by decide⟩, by decide, by decide, seeded [.busRead 0x27], _, rfl⟩

/-- `BusWritesFollowTheAddressMap`: the clauses on one word or one byte, each at a boundary. -/
theorem test_witness_bus_writes :
    (∃ s : State, ∃ w rest, s.inbox = HostMove.busWrite 0 (bytesOfWord w) :: rest) ∧
    (∃ s : State, ∃ v rest, s.inbox = HostMove.busWrite (0x10000 + 65534) [v] :: rest) ∧
    (∃ s : State, ∃ v rest, s.inbox = HostMove.busWrite 0x10 [v] :: rest ∧ s.busy = false) ∧
    (∃ s : State, ∃ v rest, s.inbox = HostMove.busWrite 0x11 [v] :: rest ∧ s.busy = false) ∧
    (∃ s : State, ∃ v rest, s.inbox = HostMove.busWrite 0x1FFFF [v] :: rest) ∧
    ∃ s : State, ∃ v rest, s.inbox = HostMove.busWrite 7 [v] :: rest :=
  ⟨⟨seeded [.busWrite 0 (bytesOfWord 0x0000000000070001)], _, _, rfl⟩, ⟨seeded [.busWrite (0x10000 + 65534) [1]], _, _, rfl⟩,
    ⟨seeded [.busWrite 0x10 [0x34]], _, _, rfl, rfl⟩, ⟨seeded [.busWrite 0x11 [0x12]], _, _, rfl, rfl⟩,
    ⟨seeded [.busWrite 0x1FFFF [1]], _, _, rfl⟩, seeded [.busWrite 7 [1]], _, _, rfl⟩

/-- The clause of the same statement on a longer write: its first byte answers a next state. -/
theorem test_witness_bus_bytes :
    ∃ s t : State, ∃ v rest, step { s with inbox := .busWrite 8 [v] :: rest } = .next t :=
  ⟨seeded [], _, 1, [], rfl⟩

/-- `InputByteWrittenIsTheByteRead`, at the last index: a write and a read. -/
theorem test_witness_input_byte :
    (∃ s : State, ∃ v rest, s.inbox = HostMove.writeIbuf 65534 v :: rest ∧ s.busy = false ∧ 65534 < 65535) ∧
    ∃ s : State, ∃ rest, s.inbox = HostMove.readIbuf 65534 :: rest :=
  ⟨⟨seeded [.writeIbuf 65534 0xFF], _, _, rfl, rfl, by decide⟩, busyWith [.readIbuf 65534], _, rfl⟩

/-- `.ibuf` in the same statement: as many bytes as fit, and one more. -/
theorem test_witness_load_input :
    (∃ s : State, ∃ bytes rest, s.inbox = HostMove.loadIbuf bytes :: rest ∧ bytes.length = 65535 ∧ s.busy = false) ∧
    ∃ s : State, ∃ bytes rest, s.inbox = HostMove.loadIbuf bytes :: rest ∧ bytes.length = 65536 :=
  ⟨⟨seeded [.loadIbuf (List.replicate 65535 7)], _, _, rfl, List.length_replicate, rfl⟩,
    seeded [.loadIbuf (List.replicate 65536 7)], _, _, rfl, List.length_replicate⟩

/-- `.ibuf_from_result` in the same statement: a result, and a result that is not there. -/
theorem test_witness_copy_result :
    (∃ s : State, ∃ rest r, s.inbox = HostMove.ibufFromResult :: rest ∧ s.resultBytes = some r ∧ r = [0x7F, 0x09] ∧
      s.busy = false) ∧
    ∃ s : State, ∃ rest, s.inbox = HostMove.ibufFromResult :: rest ∧ s.resultBytes = none :=
  ⟨⟨asked [.ibufFromResult] ((loaded []).deliver [0x7F, 0x09]), [], [0x7F, 0x09], rfl, rfl, rfl, rfl⟩,
    { seeded [.ibufFromResult] with olen := 1 }, [], rfl, by decide⟩

/-- The last clause of the same statement: a move that is neither a command nor a reset, in a busy state. -/
theorem test_witness_other_move :
    ∃ s t : State, ∃ m rest, s.inbox = m :: rest ∧ isCommand m = false ∧ m ≠ .reset ∧ step s = .next t ∧
      m = .writeReg 3 7 :=
  ⟨busyWith [.writeReg 3 7], _, _, _, rfl, rfl, by decide, rfl, rfl⟩

/-- `ConstructionSetsSeedKeyAndGenerator`: the largest seed, in a busy state. -/
theorem test_witness_construction :
    ∃ (s : State) (key : List Byte) (rest : List HostMove), key.length = 9 ∧ s.inbox = constructMoves 9 key ++ rest :=
  ⟨busyWith (constructMoves 9 testKey.toList), testKey.toList, [], by decide, (List.append_nil _).symm⟩

/-- `RunOutcomeObservesEveryCommand`: a run with an outcome that writes `CMD` in its three forms, the second of them
after one command. -/
theorem test_witness_run_outcome :
    ∃ moves o before after m, runOutcome moves = .next o ∧ moves = before ++ m :: after ∧ isCommand m = true ∧
      before.countP isCommand = 1 ∧ after.countP isCommand = 1 :=
  ⟨[.command 0x0000000000070001, .writeReg 0 0x00000000000A0001, .busWrite 0 (bytesOfWord 0)], _,
    [.command 0x0000000000070001], [.busWrite 0 (bytesOfWord 0)], .writeReg 0 0x00000000000A0001, rfl, rfl, rfl, rfl, rfl⟩

/-- `EveryRunOfInputsAndCommandsHasAnOutcome`: an input and an illegal word. -/
theorem test_witness_run_of_inputs_and_commands :
    ∀ m ∈ ([.loadIbuf [0x7F], .command 0] : List HostMove),
      (∃ w, m = .command w) ∨ ∃ bytes : List Byte, bytes.length ≤ 65535 ∧ m = .loadIbuf bytes := by
  simp

end Sys2Proof.Tests
end

section
/-! The family of 10_state.md: the reset state, the invariant that every step keeps, which operation writes which
configuration register, and the bits of `STATUS`. -/

namespace Sys2Proof.Machine

/-- What an operation that ended without error wrote: a configuration register with no result, or the generator (a
decrypt keeps its value) with a result that fits the scratch buffer (R103, R127, R130, R193). -/
theorem Effect.cases {i : Instr} {s t : State} (h : Effect i s t) :
    (∃ seed, ∃ hs : seed < 10,
        i = .setSeed seed ∧ t = (s.setSalt (BitVec.ofNat 4 seed) (saltGen ⟨seed, hs⟩)).deliver []) ∨
      (∃ o c key, i = .setSkey o c ∧ t = (s.setSkey key).deliver []) ∨
      (∃ o c name, i = .genKtab o c ∧ t = (s.setKtab (ktabGen name)).deliver []) ∨
      ∃ p r, r.length ≤ Config.scratchCap ∧ t = (s.setPrg p).deliver r := by
  cases i with
  | setSeed seed =>
    obtain ⟨hs, rfl⟩ := h
    exact .inl ⟨seed, hs, rfl, rfl⟩
  | setSkey o c => exact .inr (.inl ⟨o, c, _, rfl, h⟩)
  | genKtab o c => exact .inr (.inr (.inl ⟨o, c, _, rfl, h⟩))
  | encClient o c seq k2 =>
    obtain ⟨hc, rfl⟩ := h
    obtain ⟨-, -, hmin, hcap, -⟩ := dataCheck_eq_none.mp hc
    exact .inr (.inr (.inr ⟨_, _, (clientFrame_length s _ o seq k2 hmin).trans_le hcap, rfl⟩))
  | decClient o c k2 =>
    obtain ⟨hc, rfl⟩ := h
    obtain ⟨-, -, hmin, hcap, -⟩ := dataCheck_eq_none.mp hc
    refine .inr (.inr (.inr ⟨s.prg, _, ?_, rfl⟩))
    rw [clientPayload_length s _ o k2 hmin]
    omega
  | encServer o c seq k2 =>
    obtain ⟨hc, rfl⟩ := h
    obtain ⟨-, -, hmin, hcap, -⟩ := dataCheck_eq_none.mp hc
    exact .inr (.inr (.inr ⟨_, _, (serverFrame_length s _ o seq k2 hmin).trans_le hcap, rfl⟩))
  | decServer o c k2 =>
    obtain ⟨hc, rfl⟩ := h
    obtain ⟨-, -, hmin, hcap, -⟩ := dataCheck_eq_none.mp hc
    refine .inr (.inr (.inr ⟨s.prg, _, ?_, rfl⟩))
    rw [serverPayload_length s _ o k2 hmin]
    omega

/-- A move on an index of a buffer that answers a next state names a byte of the buffer. -/
theorem indexed_lt {space : Space} {cap k : Nat} {inside : Host.Outcome State Fault Refusal} {t : State}
    (h : indexed space cap k inside = .next t) : k < cap := by
  unfold indexed at h
  split at h
  · assumption
  · cases h

/-- A read of the result window that answers a next state keeps the input buffer. -/
theorem readResult_ibuf {s t : State} {k : Nat} (h : readResult k s = .next t) : t.ibuf = s.ibuf := by
  unfold readResult at h
  split at h
  · split at h <;> cases h
    rfl
  · cases h

/-- A read on the bus that answers a next state keeps the input buffer. -/
theorem busRead_ibuf {s t : State} {addr : Nat} (h : busRead addr s = .next t) : t.ibuf = s.ibuf := by
  unfold busRead at h
  split at h
  · cases h; rfl
  · split at h
    · cases h; rfl
    · split at h
      · exact readResult_ibuf h
      · cases h; rfl

/-- A byte written on the bus keeps the canonical form of the input buffer. -/
theorem busWriteByte_ibuf_wf {s t : State} {addr : Nat} {v : Byte} (h : busWriteByte addr v s = .next t)
    (hs : s.ibuf.wf Config.ibufCap) : t.ibuf.wf Config.ibufCap := by
  unfold busWriteByte at h
  split at h
  · cases inputWrite_next h; exact hs
  · split at h
    · cases inputWrite_next h; exact hs
    · split at h
      next haddr =>
        cases inputWrite_next h
        exact Memory.write_wf v hs (by simp only [Config.ibufCap]; omega)
      next => cases h; exact hs

/-- Bytes written on the bus keep the canonical form of the input buffer. -/
theorem busWriteBytes_ibuf_wf {s t : State} {addr : Nat} {bytes : List Byte}
    (h : busWriteBytes addr bytes s = .next t) (hs : s.ibuf.wf Config.ibufCap) : t.ibuf.wf Config.ibufCap := by
  induction bytes generalizing addr s with
  | nil => cases h; exact hs
  | cons b bs ih =>
    simp only [busWriteBytes] at h
    split at h
    next hu => exact ih h (busWriteByte_ibuf_wf hu hs)
    all_goals cases h

/-- Loading the input keeps the canonical form of the input buffer. -/
theorem loadIbuf_ibuf_wf {s t : State} {bytes : List Byte} (h : loadIbuf bytes s = .next t)
    (hs : s.ibuf.wf Config.ibufCap) : t.ibuf.wf Config.ibufCap := by
  unfold loadIbuf at h
  split at h
  next hlen => cases inputWrite_next h; exact Memory.writeBytes_wf bytes hs (by omega)
  next => cases h

open Safety in
/-- A host move that is not a command keeps the canonical form of the input buffer. -/
theorem hostMove_ibuf_wf {m : HostMove} {s t : State} (hm : isCommand m = false) (h : hostMove m s = .next t)
    (hs : s.ibuf.wf Config.ibufCap) : t.ibuf.wf Config.ibufCap := by
  cases m with
  | reset => cases h; exact State.reset_buffers_wf.1
  | command w => cases hm
  | writeReg n v =>
    simp only [hostMove, writeReg] at h
    split at h
    · cases hm
    · cases inputWrite_next h; exact hs
    · cases h; exact hs
  | readReg n => cases h; exact hs
  | writeIbuf k v => cases inputWrite_next (indexed_next h); exact Memory.write_wf v hs (indexed_lt h)
  | readIbuf k => cases indexed_next h; exact hs
  | writeResult k v => cases indexed_next h; exact hs
  | readResult k => rw [readResult_ibuf (indexed_next h)]; exact hs
  | busWrite addr bytes =>
    simp only [hostMove, busWrite] at h
    split at h
    next hc => simp [isCommand, hc] at hm
    next =>
      split at h
      · cases h
      · exact busWriteBytes_ibuf_wf h hs
  | busRead addr => rw [busRead_ibuf h]; exact hs
  | loadIbuf bytes => exact loadIbuf_ibuf_wf h hs
  | ibufFromResult =>
    simp only [hostMove, ibufFromResult] at h
    split at h
    · exact loadIbuf_ibuf_wf h hs
    · cases h

/-- The Salt Table after reset is the one of seed 0 (R39, R91). -/
theorem saltGen_zero : saltGen 0 = tabulate 256 (BitVec.ofNat 8) := by
  ext i hi
  simp [saltGen, saltFormula, saltF0, trunc8]

end Sys2Proof.Machine

namespace Sys2Proof.Safety

open Sys2Proof.Machine

/-- The clauses of `Inv` that speak of registers and the input buffer, and so hold inside an operation as well, where
those on `BUSY`, `DONE`, `ERR` and the result do not. -/
structure StorageInv (s : State) : Prop where
  salt_of_seed : ∃ h : s.seed.toNat < 10, s.salt = saltGen ⟨s.seed.toNat, h⟩
  ktab_of_name : s.ktabValid = true → ∃ name, s.ktab = ktabGen name
  ibuf_wf : s.ibuf.wf Config.ibufCap

/-- The invariant includes its clauses on the storage. -/
theorem Inv.storage {s : State} (h : Inv s) : StorageInv s := ⟨h.salt_of_seed, h.ktab_of_name, h.ibuf_wf⟩

/-- Acceptance of a command keeps the storage sound. -/
theorem StorageInv.accept {s : State} (h : StorageInv s) : StorageInv s.accept :=
  ⟨h.salt_of_seed, h.ktab_of_name, h.ibuf_wf⟩

/-- A legal seed written with its table keeps the storage sound. -/
theorem StorageInv.setSalt {s : State} (h : StorageInv s) {seed : Nat} (hs : seed < 10) :
    StorageInv (s.setSalt (BitVec.ofNat 4 seed) (saltGen ⟨seed, hs⟩)) := by
  have hseed : (BitVec.ofNat 4 seed).toNat = seed := by simp; omega
  exact ⟨⟨by simpa [hseed] using hs, by simp [hseed]⟩, h.ktab_of_name, h.ibuf_wf⟩

/-- A new static keystream keeps the storage sound. -/
theorem StorageInv.setSkey {s : State} (h : StorageInv s) (key : Table 9) : StorageInv (s.setSkey key) :=
  ⟨h.salt_of_seed, h.ktab_of_name, h.ibuf_wf⟩

/-- The table of a name written to `KTAB` keeps the storage sound. -/
theorem StorageInv.setKtab {s : State} (h : StorageInv s) (name : List Byte) :
    StorageInv (s.setKtab (ktabGen name)) :=
  ⟨h.salt_of_seed, fun _ => ⟨name, rfl⟩, h.ibuf_wf⟩

/-- A new generator state keeps the storage sound. -/
theorem StorageInv.setPrg {s : State} (h : StorageInv s) (p : BitVec 32) : StorageInv (s.setPrg p) :=
  ⟨h.salt_of_seed, h.ktab_of_name, h.ibuf_wf⟩

/-- An operation that ends over sound storage, with a result that fits and with none on an error, ends in a state that
meets the invariant. -/
theorem StorageInv.finish {s : State} (h : StorageInv s) {e : ErrCode} {r : List Byte}
    (hr : r.length ≤ Config.scratchCap) (he : e ≠ .none → r = []) : Inv (s.finish e r) := by
  have holen : (s.finish e r).olen.toNat = r.length := s.deliver_olen_toNat hr
  exact {
    salt_of_seed := h.salt_of_seed
    ktab_of_name := h.ktab_of_name
    scratch_is_result := by rw [holen, List.range_eq_range']; exact Memory.ofBytes_indices 0 r
    olen_fits := holen.trans_le hr
    ibuf_wf := h.ibuf_wf
    error_empty := fun herr => by rw [State.finish_olen, he herr]; rfl
    fresh_empty := fun hd => Bool.noConfusion hd
    idle := rfl }

/-- The error entry over sound storage ends in a state that meets the invariant. -/
theorem StorageInv.raise {s : State} (h : StorageInv s) (e : ErrCode) : Inv (s.raise e) :=
  h.finish (Nat.zero_le _) fun _ => rfl

/-- A delivered result that fits, over sound storage, ends in a state that meets the invariant. -/
theorem StorageInv.deliver {s : State} (h : StorageInv s) {r : List Byte} (hr : r.length ≤ Config.scratchCap) :
    Inv (s.deliver r) :=
  h.finish hr fun he => absurd rfl he

/-- Every instruction over sound storage ends in a state that meets the invariant. -/
theorem exec_inv {i : Instr} {s t : State} (hs : StorageInv s) (h : exec i s = .next t) : Inv t := by
  rcases exec_cases h with ⟨e, -, rfl⟩ | h
  · exact hs.raise e
  · obtain ⟨_, hseed, -, rfl⟩ | ⟨_, _, key, -, rfl⟩ | ⟨_, _, name, -, rfl⟩ | ⟨p, r, hr, rfl⟩ := h.cases
    · exact (hs.setSalt hseed).deliver (Nat.zero_le _)
    · exact (hs.setSkey key).deliver (Nat.zero_le _)
    · exact (hs.setKtab name).deliver (Nat.zero_le _)
    · exact (hs.setPrg p).deliver hr

/-- A word written to `CMD`, legal or not, keeps the invariant. -/
theorem writeCmd_inv {w : BitVec 64} {s t : State} (hs : Inv s) (h : writeCmd w s = .next t) : Inv t := by
  cases hd : decode w with
  | ok i => exact exec_inv hs.storage.accept ((writeCmd_of_decode hs.idle hd).symm.trans h)
  | error e =>
    cases (writeCmd_of_error hs.idle hd).symm.trans h
    exact hs.storage.accept.raise .illegalCommand

/-- A host edit that leaves the input buffer in canonical form keeps the invariant. -/
theorem Inv.hostEdit {s t : State} (hs : Inv s) (h : HostEdit s t) (hwf : t.ibuf.wf Config.ibufCap) : Inv t := by
  obtain ⟨m, n, d, rfl⟩ := h
  exact { hs with ibuf_wf := hwf }

/-- Taking a move from the queue, or any other change of it, keeps the invariant. -/
theorem Inv.popped {s : State} (hs : Inv s) (rest : List HostMove) : Inv (s.popped rest) := { hs with }

/-- The state after a reset meets the invariant, whatever free values it draws. -/
theorem afterReset_inv (n : Nat) : Inv (State.afterReset n) where
  salt_of_seed := ⟨show (0#4).toNat < 10 by decide, saltGen_zero.symm⟩
  ktab_of_name := fun h => Bool.noConfusion h
  scratch_is_result := rfl
  olen_fits := Nat.zero_le _
  ibuf_wf := State.reset_buffers_wf.1
  error_empty := fun _ => rfl
  fresh_empty := fun _ => ⟨rfl, rfl⟩
  idle := rfl

/-- A reset in any state ends in a state that meets the invariant. -/
theorem resetNow_inv (s : State) : Inv s.resetNow := { afterReset_inv s.freeCount with }

/-- Every host move keeps the invariant. -/
theorem hostMove_inv {m : HostMove} {s t : State} (hs : Inv s) (h : hostMove m s = .next t) : Inv t := by
  rcases hostMove_cases h with ⟨-, w, hw⟩ | ⟨-, rfl⟩ | ⟨hm, hedit⟩
  · exact writeCmd_inv hs hw
  · exact resetNow_inv s
  · exact hs.hostEdit hedit (hostMove_ibuf_wf hm h hs.ibuf_wf)

end Sys2Proof.Safety

namespace Sys2Proof.Claims

open Sys2Proof.Machine Sys2Proof.Safety

/-- Settles O15: an idle step keeps the state, and any other performs a host move, which keeps the invariant. -/
theorem everyStepKeepsTheInvariant : Obligations.EveryStepKeepsTheInvariant := by
  intro s t hs h
  cases hq : s.inbox with
  | nil =>
    cases (step_of_empty hq).symm.trans h
    exact hs
  | cons m rest => exact hostMove_inv (hs.popped rest) ((step_of_move hq).symm.trans h)

/-- Settles O43, from the error entry, which keeps every register, and the four kinds of effect. -/
theorem configurationChangesOnlyByItsOperation : Obligations.ConfigurationChangesOnlyByItsOperation := by
  intro i s t h
  rcases exec_cases h with ⟨e, -, rfl⟩ | h
  · exact ⟨fun _ => ⟨rfl, rfl⟩, fun _ => rfl, fun _ => ⟨rfl, rfl⟩, id, fun _ => ⟨rfl, rfl, rfl, rfl, rfl, rfl⟩⟩
  · obtain ⟨seed, _, rfl, rfl⟩ | ⟨o, c, _, rfl, rfl⟩ | ⟨o, c, _, rfl, rfl⟩ | ⟨_, _, -, rfl⟩ := h.cases
    · exact ⟨fun hne => absurd rfl (hne seed), fun _ => rfl, fun _ => ⟨rfl, rfl⟩, id, fun he => absurd rfl he⟩
    · exact ⟨fun _ => ⟨rfl, rfl⟩, fun hne => absurd rfl (hne o c), fun _ => ⟨rfl, rfl⟩, id, fun he => absurd rfl he⟩
    · exact ⟨fun _ => ⟨rfl, rfl⟩, fun _ => rfl, fun hne => absurd rfl (hne o c), fun _ => rfl, fun he => absurd rfl he⟩
    · exact ⟨fun _ => ⟨rfl, rfl⟩, fun _ => rfl, fun _ => ⟨rfl, rfl⟩, id, fun he => absurd rfl he⟩

/-- Settles O12, field by field of the reset state. -/
theorem resetLeavesTheStatedValues : Obligations.ResetLeavesTheStatedValues :=
  ⟨rfl, fun i h => tabulate_getElem 256 (BitVec.ofNat 8) i h, rfl, rfl, rfl, rfl, rfl, by decide⟩

/-- Settles O14: the reset state is the one that draws free values number 0. -/
theorem resetStateMeetsTheInvariant : Obligations.ResetStateMeetsTheInvariant := afterReset_inv 0

/-- Settles O52: the four fields lie side by side in `STATUS`, so each bit comes from one of them. -/
theorem statusShowsItsFields : Obligations.StatusShowsItsFields := by
  refine ⟨⟨rfl, rfl, rfl, rfl, rfl, rfl, rfl, rfl⟩, fun s => ⟨?busy, ?done, ?valid, ?zero, ?err⟩⟩
  case busy => simp [State.status]
  case done => simp [State.status]
  case valid => simp [State.status]
  case zero => simp [State.status]
  case err =>
    ext j hj
    simp [State.status, show 4 + j < 8 by omega, show 4 + j - 2 ≠ 0 by omega, BitVec.getLsbD_eq_getElem hj]

end Sys2Proof.Claims
end

section
/-! The family of 20_memory.md: no operation writes the input buffer. -/

namespace Sys2Proof.Claims

open Sys2Proof.Machine

/-- The end of an operation, in error or not, adds no change to the host's side (R198, R31). -/
theorem HostSideKept.finish {s u : State} (h : HostSideKept s u) (e : ErrCode) (r : List Byte) :
    HostSideKept s (u.finish e r) := by
  obtain ⟨hilen, hbyte, hibuf, hinbox, hdata⟩ := h
  exact ⟨hilen, hbyte, hibuf, hinbox, hdata⟩

/-- The error entry keeps the host's side (R198). -/
theorem raise_hostSideKept (s : State) (e : ErrCode) : HostSideKept s (s.raise e) :=
  HostSideKept.finish ⟨rfl, fun _ => rfl, rfl, rfl, rfl⟩ e []

/-- A result delivered over a state that kept the host's side keeps it (R31). -/
theorem HostSideKept.deliver {s u : State} (h : HostSideKept s u) (r : List Byte) :
    HostSideKept s (u.deliver r) :=
  h.finish .none r

/-- A seed written with its Salt Table keeps the host's side. -/
theorem setSalt_hostSideKept (s : State) (n : BitVec 4) (t : Table 256) : HostSideKept s (s.setSalt n t) :=
  ⟨rfl, s.setSalt_inputByte n t, rfl, rfl, rfl⟩

/-- A new static keystream keeps the host's side. -/
theorem setSkey_hostSideKept (s : State) (key : Table 9) : HostSideKept s (s.setSkey key) :=
  ⟨rfl, s.setSkey_inputByte key, rfl, rfl, rfl⟩

/-- A new Keystream Table keeps the host's side. -/
theorem setKtab_hostSideKept (s : State) (t : Table 1024) : HostSideKept s (s.setKtab t) :=
  ⟨rfl, s.setKtab_inputByte t, rfl, rfl, rfl⟩

/-- A new generator state keeps the host's side. -/
theorem setPrg_hostSideKept (s : State) (p : BitVec 32) : HostSideKept s (s.setPrg p) :=
  ⟨rfl, s.setPrg_inputByte p, rfl, rfl, rfl⟩

/-- Settles O42: the error entry keeps the host's side, and so does each of the four kinds of effect, a register of the
engine written and a result delivered. -/
theorem noOperationWritesTheInputBuffer : Obligations.NoOperationWritesTheInputBuffer := by
  intro i s t h
  rcases exec_cases h with ⟨e, -, rfl⟩ | h
  · exact raise_hostSideKept s e
  · obtain ⟨_, _, -, rfl⟩ | ⟨_, _, key, -, rfl⟩ | ⟨_, _, name, -, rfl⟩ | ⟨p, r, -, rfl⟩ := h.cases
    · exact (setSalt_hostSideKept s _ _).deliver []
    · exact (setSkey_hostSideKept s key).deliver []
    · exact (setKtab_hostSideKept s (ktabGen name)).deliver []
    · exact (setPrg_hostSideKept s p).deliver r

end Sys2Proof.Claims
end

section
/-! The family of 30_encoding.md: which row a word selects, the fields a row fixes, the round trip between words and
well-formed instructions, and the assembler form. -/

namespace Sys2Proof

open Sys2Proof.Laws

/-- A field that a row's mask covers whole has the value the row's match gives it (R72). -/
theorem Opcode.extractLsb'_of_selects {o : Opcode} {w : BitVec 64} (h : o.selects w = true) {start len : Nat}
    (hm : o.mask.extractLsb' start len = BitVec.allOnes len) :
    w.extractLsb' start len = o.pattern.extractLsb' start len := by
  have hw : w &&& o.mask = o.pattern := beq_iff_eq.mp h
  rw [← hw, BitVec.extractLsb'_and, hm, BitVec.and_allOnes]

/-- Every row fixes the field `OPC` at its code (R72). -/
theorem Opcode.fieldOpc_of_selects {o : Opcode} {w : BitVec 64} (h : o.selects w = true) : fieldOpc w = o.code :=
  (Opcode.extractLsb'_of_selects h (by cases o <;> decide)).trans (by cases o <;> decide)

/-- Every row is in the list of rows. -/
theorem Opcode.mem_all (o : Opcode) : o ∈ Opcode.all := by cases o <;> decide

/-- The codes of two rows differ (R72). -/
theorem Opcode.code_injective : Function.Injective Opcode.code := by
  intro o o' h
  exact (by decide : ∀ o ∈ Opcode.all, ∀ o' ∈ Opcode.all, o.code = o'.code → o = o') o o.mem_all o' o'.mem_all h

/-- A word selects at most one row: the rows differ in `OPC` (R75). -/
theorem Opcode.eq_of_selects {o o' : Opcode} {w : BitVec 64} (h : o.selects w = true) (h' : o'.selects w = true) :
    o' = o :=
  Opcode.code_injective ((Opcode.fieldOpc_of_selects h').symm.trans (Opcode.fieldOpc_of_selects h))

/-- The row found is one that the word selects. -/
theorem selects_of_selectRow {w : BitVec 64} {o : Opcode} (h : selectRow w = some o) : o.selects w = true :=
  List.find?_some (p := fun r : Opcode => r.selects w) h

/-- When no row is found, the word selects none. -/
theorem selects_of_selectRow_none {w : BitVec 64} (h : selectRow w = none) (o : Opcode) : o.selects w = false :=
  Bool.eq_false_of_not_eq_true (List.find?_eq_none.mp h o o.mem_all)

/-- The row a word selects is the row found, since it selects no other. -/
theorem selectRow_of_selects {w : BitVec 64} {o : Opcode} (h : o.selects w = true) : selectRow w = some o := by
  cases hr : selectRow w with
  | none => exact absurd h (by simp [selects_of_selectRow_none hr o])
  | some o' => rw [Opcode.eq_of_selects h (selects_of_selectRow hr)]

/-- A word that selects a row decodes to the row's operands. -/
theorem decode_of_selects {w : BitVec 64} {o : Opcode} (h : o.selects w = true) : decode w = .ok (o.operands w) := by
  simp only [decode, selectRow_of_selects h]

/-- A word for which no row is found is rejected (R75). -/
theorem decode_of_selectRow_none {w : BitVec 64} (h : selectRow w = none) : decode w = .error (rejectReason w) := by
  simp only [decode, h]

/-- A word that decodes selects a row and decodes to its operands. -/
theorem selects_of_decode {w : BitVec 64} {i : Instr} (h : decode w = .ok i) :
    ∃ o : Opcode, o.selects w = true ∧ o.operands w = i := by
  cases hr : selectRow w with
  | none => cases (decode_of_selectRow_none hr).symm.trans h
  | some o =>
    have ho := selects_of_selectRow hr
    exact ⟨o, ho, Except.ok.inj ((decode_of_selects ho).symm.trans h)⟩

/-- The word of a well-formed instruction selects the instruction's own row (R70, R72). -/
theorem encode_selects {i : Instr} (h : i.WellFormed) : i.opcode.selects (encode i) = true := by
  cases i with
  | setSeed => exact (Laws.Encoding.setSeed _ h).1
  | setSkey => exact (Laws.Encoding.setSkey _ _ h).1
  | genKtab => exact (Laws.Encoding.genKtab _ _ h).1
  | encClient => exact (Laws.Encoding.encClient _ _ _ _ h).1
  | decClient => exact (Laws.Encoding.decClient _ _ _ h).1
  | encServer => exact (Laws.Encoding.encServer _ _ _ _ h).1
  | decServer => exact (Laws.Encoding.decServer _ _ _ h).1

/-- The operands of a well-formed instruction are read back from its word (R73). -/
theorem operands_encode {i : Instr} (h : i.WellFormed) : i.opcode.operands (encode i) = i := by
  cases i with
  | setSeed seed => simp [Instr.opcode, Opcode.operands, encode, fieldArg_encodeFields, Nat.mod_eq_of_lt h]
  | _ =>
    obtain ⟨hoffset, hcount⟩ := h
    simp [Instr.opcode, Opcode.operands, encode, fieldArg_encodeFields, fieldK2_encodeFields,
      fieldOffset_encodeFields _ _ _ _ hoffset, fieldCount_encodeFields _ _ _ hoffset hcount]

/-- The word of a well-formed instruction decodes to it. -/
theorem decode_encode {i : Instr} (h : i.WellFormed) : decode (encode i) = .ok i := by
  rw [decode_of_selects (encode_selects h), operands_encode h]

/-- Eight bytes in the bus order decode as their word. -/
theorem decodeBytes_bytesOfWord (w : BitVec 64) : decodeBytes (bytesOfWord w) = decode w := by
  rw [decodeBytes, if_pos (by simp [bytesOfWord]), Machine.wordOfBytes_bytesOfWord]

/-- Two words that agree on a field agree on every bit of it. -/
theorem getLsbD_eq_of_extractLsb'_eq {w v : BitVec 64} {start len j : Nat}
    (h : w.extractLsb' start len = v.extractLsb' start len) (hlo : start ≤ j) (hhi : j < start + len) :
    w.getLsbD j = v.getLsbD j := by
  have hbit := congrArg (·.getLsbD (j - start)) h
  simpa [show j - start < len by omega, Nat.add_sub_cancel' hlo] using hbit

/-- Two words that agree on the seven fields are equal: the fields cover all 64 bits (R70). -/
theorem word_eq_of_fields {w v : BitVec 64} (hopc : fieldOpc w = fieldOpc v) (hrsv0 : fieldRsv0 w = fieldRsv0 v)
    (hrsv1 : fieldRsv1 w = fieldRsv1 v) (hk2 : fieldK2 w = fieldK2 v) (harg : fieldArg w = fieldArg v)
    (hoffset : fieldOffset w = fieldOffset v) (hcount : fieldCount w = fieldCount v) : w = v := by
  apply BitVec.eq_of_getLsbD_eq
  intro j hj
  obtain hj | rfl | hj | hj | hj | hj | hj : j < 8 ∨ j = 8 ∨ (9 ≤ j ∧ j < 9 + 7) ∨ (16 ≤ j ∧ j < 16 + 8) ∨
      (24 ≤ j ∧ j < 24 + 8) ∨ (32 ≤ j ∧ j < 32 + 16) ∨ (48 ≤ j ∧ j < 48 + 16) := by omega
  · exact getLsbD_eq_of_extractLsb'_eq hopc (Nat.zero_le j) (by omega)
  · exact hk2
  · exact getLsbD_eq_of_extractLsb'_eq hrsv0 hj.1 hj.2
  · exact getLsbD_eq_of_extractLsb'_eq harg hj.1 hj.2
  · exact getLsbD_eq_of_extractLsb'_eq hrsv1 hj.1 hj.2
  · exact getLsbD_eq_of_extractLsb'_eq (BitVec.eq_of_toNat_eq hoffset) hj.1 hj.2
  · exact getLsbD_eq_of_extractLsb'_eq (BitVec.eq_of_toNat_eq hcount) hj.1 hj.2

/-- Two words of one row with the same operands are equal: the row's mask covers every field that is no operand of the
row (R72, R74). -/
theorem Opcode.eq_of_operands_eq {o : Opcode} {w v : BitVec 64} (hw : o.selects w = true) (hv : o.selects v = true)
    (h : o.operands w = o.operands v) : w = v := by
  have covered {start len : Nat} (hm : o.mask.extractLsb' start len = BitVec.allOnes len) :
      w.extractLsb' start len = v.extractLsb' start len :=
    (Opcode.extractLsb'_of_selects hw hm).trans (Opcode.extractLsb'_of_selects hv hm).symm
  have hopc : fieldOpc w = fieldOpc v := covered (by cases o <;> decide)
  have hrsv0 : fieldRsv0 w = fieldRsv0 v := covered (by cases o <;> decide)
  have hrsv1 : fieldRsv1 w = fieldRsv1 v := covered (by cases o <;> decide)
  have hk2 (hm : o.mask.extractLsb' 8 1 = 1) : fieldK2 w = fieldK2 v :=
    getLsbD_eq_of_extractLsb'_eq (covered hm) (le_refl 8) (by decide)
  cases o with
  | setSeed =>
    injection h with harg
    exact word_eq_of_fields hopc hrsv0 hrsv1 (hk2 (by decide)) (BitVec.eq_of_toNat_eq harg)
      (congrArg BitVec.toNat (covered (by decide))) (congrArg BitVec.toNat (covered (by decide)))
  | setSkey | genKtab =>
    injection h with hoffset hcount
    exact word_eq_of_fields hopc hrsv0 hrsv1 (hk2 (by decide)) (covered (by decide)) hoffset hcount
  | encClient | encServer =>
    injection h with hoffset hcount harg hk
    exact word_eq_of_fields hopc hrsv0 hrsv1 hk harg hoffset hcount
  | decClient | decServer =>
    injection h with hoffset hcount hk
    exact word_eq_of_fields hopc hrsv0 hrsv1 hk (covered (by decide)) hoffset hcount

/-- The operands a row reads from any word fit their fields (R73). -/
theorem Opcode.operands_wellFormed (o : Opcode) (w : BitVec 64) : (o.operands w).WellFormed := by
  cases o with
  | setSeed => exact (fieldArg w).isLt
  | _ => exact ⟨BitVec.isLt _, BitVec.isLt _⟩

/-- An instruction that a row assembles belongs to the row. -/
theorem Opcode.operands_opcode (o : Opcode) (w : BitVec 64) : (o.operands w).opcode = o := by cases o <;> rfl

/-- A word that selects a row is the word of the instruction the row assembles: the two select the same row and have
the same operands. -/
theorem Opcode.encode_operands {o : Opcode} {w : BitVec 64} (h : o.selects w = true) : encode (o.operands w) = w := by
  have hwf := o.operands_wellFormed w
  have hsel := encode_selects hwf
  have hops := operands_encode hwf
  rw [o.operands_opcode] at hsel hops
  exact Opcode.eq_of_operands_eq hsel h hops

/-- The number of a bit is read as the bit (R76). -/
theorem asmBit_toNat (k : Bool) : asmBit k.toNat = some k := by cases k <;> rfl

/-- The number of a byte is read as the byte (R76). -/
theorem asmByte_toNat (b : Byte) : asmByte b.toNat = some b := by simp [asmByte, b.isLt]

/-- An instruction whose numbers fit their fields is assembled (R76). -/
theorem asmChecked_of_fits (i : Instr) {fits : Prop} [Decidable fits] (h : fits) :
    asmChecked i (decide fits) = some i := by
  simp [asmChecked, h]

end Sys2Proof

namespace Sys2Proof.Claims

/-- Settles O2: the word selects the instruction's own row, which reads the operands back, and the eight bytes make the
word again. -/
theorem decodingAnEncodingGivesTheInstruction : Obligations.DecodingAnEncodingGivesTheInstruction :=
  fun _ h => ⟨decode_encode h, (decodeBytes_bytesOfWord _).trans (decode_encode h)⟩

/-- Settles O4: the row the decoder finds is the only one the word selects, since the rows differ in `OPC`; where it
finds none, none is selected. -/
theorem exactlyOneRowMatchesOrTheWordIsIllegal : Obligations.ExactlyOneRowMatchesOrTheWordIsIllegal := by
  intro w
  cases hr : selectRow w with
  | some o =>
    have ho := selects_of_selectRow hr
    exact .inl ⟨o, ho, fun _ ho' => Opcode.eq_of_selects ho ho', decode_of_selects ho⟩
  | none => exact .inr ⟨selects_of_selectRow_none hr, rejectReason w, decode_of_selectRow_none hr⟩

/-- Settles O3: a word that decodes selects a row, whose operands are well formed and whose encoding is the word. -/
theorem everyLegalWordIsAnEncoding : Obligations.EveryLegalWordIsAnEncoding := by
  intro w i h
  obtain ⟨o, ho, rfl⟩ := selects_of_decode h
  exact ⟨o.operands_wellFormed w, Opcode.encode_operands ho⟩

/-- Settles O1, by evaluating the decoder on each word. -/
theorem specWordsDecodeToTheirCommands : Obligations.SpecWordsDecodeToTheirCommands :=
  ⟨rfl, rfl, rfl, rfl, rfl, rfl, rfl, rfl⟩

/-- Settles O5: each operand of a well-formed instruction is read back from its number, and the range check holds. -/
theorem assemblerFormAssemblesToTheInstruction : Obligations.AssemblerFormAssemblesToTheInstruction := by
  intro i h
  cases i with
  | setSeed | setSkey | genKtab => exact asmChecked_of_fits _ h
  | decClient | decServer =>
    simp only [Instr.mnemonic, Instr.asmOperands, assemble, asmBit_toNat, Option.bind_some, asmChecked_of_fits _ h]
  | encClient | encServer =>
    simp only [Instr.mnemonic, Instr.asmOperands, assemble, asmByte_toNat, asmBit_toNat, Option.bind_some,
      asmChecked_of_fits _ h]

end Sys2Proof.Claims
end

section
/-! The family of 40_salt_table_generator.md: the ten salt formulas on natural numbers, their range, and `SET_SEED`. -/

namespace Sys2Proof.Machine

/-- An entry of a Salt Table is its formula truncated to a byte (R90). -/
@[simp] theorem saltGen_getElem (seed : Fin 10) {i : Nat} (h : i < 256) :
    (saltGen seed)[i] = trunc8 (saltFormula seed i) :=
  tabulate_getElem 256 (fun j => trunc8 (saltFormula seed j)) i h

/-- Truncation keeps an integer that is a byte already (R9). -/
theorem trunc8_toNat_of_byte {v : Int} (hlo : 0 ≤ v) (hhi : v ≤ 255) : ((trunc8 v).toNat : Int) = v := by
  simp only [trunc8, BitVec.toNat_ofInt]
  omega

/-- A product with the sign `s(i)`: the factor where `i` is even, its negation where `i` is odd (R92). -/
theorem saltSign_mul (i : Nat) (v : Int) : saltSign i * v = if i % 2 = 0 then v else -v := by
  unfold saltSign
  split <;> split <;> omega

/-- Division that truncates toward zero is division of natural numbers on an integer that is one (R9). -/
theorem tdiv_eq_natCast {v : Int} {n : Nat} (k : Nat) (h : v = n) : Int.tdiv v k = (n / k : Nat) :=
  h ▸ Int.ofNat_tdiv n k

/-- `F_1` on natural numbers, by the parity of the index (R92). -/
theorem saltF1_natCast {i : Nat} (h : i < 256) :
    saltF1 i = ((if i % 2 = 0 then 128 + i / 2 else 127 - i / 2 : Nat) : Int) := by
  have hdiv : Int.tdiv (i + 1) 2 = ((i + 1) / 2 : Nat) := tdiv_eq_natCast 2 rfl
  rw [saltF1, saltSign_mul, hdiv]
  split <;> omega

/-- `F_3` on natural numbers, by the parity of the index (R94). -/
theorem saltF3_natCast {i : Nat} (h : i < 256) :
    saltF3 i = ((if i % 2 = 0 then 255 - i / 2 else 1 + i / 2 : Nat) : Int) := by
  have hdiv : Int.tdiv (255 - i) 2 = ((255 - i) / 2 : Nat) := tdiv_eq_natCast 2 (by omega)
  rw [saltF3, saltSign_mul, hdiv]
  split <;> omega

/-- `F_4` on natural numbers (R95). -/
theorem saltF4_natCast (i : Nat) : saltF4 i = ((i / 16 * (i / 16) : Nat) : Int) := by
  have hdiv : Int.tdiv i 16 = (i / 16 : Nat) := tdiv_eq_natCast 16 rfl
  rw [saltF4, hdiv, Int.natCast_mul]

/-- `F_9` on natural numbers: the quotient truncates toward zero, so its square is that of the distance to 128 divided
by 8 on either side (R100). -/
theorem saltF9_natCast (i : Nat) :
    saltF9 i = ((255 - (if 128 ≤ i then (i - 128) / 8 * ((i - 128) / 8)
      else (128 - i) / 8 * ((128 - i) / 8)) % 256 : Nat) : Int) := by
  unfold saltF9
  split
  next h =>
    have hdiv : Int.tdiv (i - 128) 8 = ((i - 128) / 8 : Nat) := tdiv_eq_natCast 8 (by omega)
    rw [hdiv, ← Int.natCast_mul]
    omega
  next h =>
    have hdiv : Int.tdiv (i - 128) 8 = -((128 - i) / 8 : Nat) := by
      rw [← Int.neg_sub, Int.neg_tdiv]
      exact congrArg Neg.neg (tdiv_eq_natCast 8 (by omega))
    rw [hdiv, Int.neg_mul_neg, ← Int.natCast_mul]
    omega

/-- Every formula of a seed keeps an index in the range of a byte (R101). -/
theorem saltFormula_range (seed : Fin 10) {i : Nat} (h : i < 256) :
    0 ≤ saltFormula seed i ∧ saltFormula seed i ≤ 255 := by
  match seed with
  | 0 => simp only [saltFormula, saltF0]; omega
  | 1 => simp only [saltFormula, saltF1_natCast h]; split <;> omega
  | 2 => simp only [saltFormula, saltF2]; omega
  | 3 => simp only [saltFormula, saltF3_natCast h]; split <;> omega
  | 4 =>
    have hsq : i / 16 * (i / 16) ≤ 15 * 15 := Nat.mul_le_mul (by omega) (by omega)
    simp only [saltFormula, saltF4_natCast]
    omega
  | 5 => simp only [saltFormula, saltF5]; omega
  | 6 => simp only [saltFormula, saltF6]; omega
  | 7 => simp only [saltFormula, saltF7]; omega
  | 8 => simp only [saltFormula, saltF8]; omega
  | 9 => simp only [saltFormula, saltF9_natCast]; omega

/-- An entry of a Salt Table is the value of its formula: the truncation to a byte changes nothing (R101). -/
theorem saltGen_toNat_eq_formula (seed : Fin 10) {i : Nat} (h : i < 256) :
    ((saltGen seed)[i].toNat : Int) = saltFormula seed i := by
  obtain ⟨hlo, hhi⟩ := saltFormula_range seed h
  rw [saltGen_getElem seed h, trunc8_toNat_of_byte hlo hhi]

/-- An entry of a Salt Table is the natural number that its formula gives. -/
theorem saltGen_toNat_of_formula {seed : Fin 10} {i n : Nat} (h : i < 256) (hn : saltFormula seed i = n) :
    (saltGen seed)[i].toNat = n :=
  Int.ofNat_inj.mp ((saltGen_toNat_eq_formula seed h).trans hn)

/-- `SET_SEED` with a legal seed writes the seed and its table and delivers no bytes (R103). -/
theorem exec_setSeed_of_lt (s : State) {seed : Nat} (h : seed < 10) :
    exec (.setSeed seed) s = .next ((s.setSalt (BitVec.ofNat 4 seed) (saltGen ⟨seed, h⟩)).deliver []) :=
  dif_pos h

/-- `SET_SEED` with a greater seed ends in the error entry with `SEED_RANGE` (R103). -/
theorem exec_setSeed_of_gt (s : State) {seed : Nat} (h : 9 < seed) :
    exec (.setSeed seed) s = .next (s.raise .seedRange) :=
  dif_neg (Nat.not_lt.mpr h)

end Sys2Proof.Machine

namespace Sys2Proof.Claims

open Sys2Proof.Machine

/-- A delivered result that fits the scratch buffer ends the operation with it (R31). -/
theorem deliver_endedWith (s : State) {r : List Byte} (h : r.length ≤ Config.scratchCap) :
    EndedWith (s.deliver r) r :=
  ⟨rfl, rfl, rfl, s.deliver_olen_toNat h, s.deliver_resultBytes h, fun k => by simp [Memory.read_ofBytes]⟩

/-- The error entry ends the operation with its code (R198). -/
theorem raise_endedInError (s : State) (e : ErrCode) : EndedInError (s.raise e) e := ⟨rfl, rfl, rfl, rfl⟩

/-- The error entry keeps every register that carries meaning across operations (R198). -/
theorem raise_engineKept (s : State) (e : ErrCode) : EngineKept s (s.raise e) := ⟨rfl, rfl, rfl, rfl, rfl, rfl⟩

/-- Settles O19: the two branches of `SET_SEED`, a delivered empty result over the new seed and table, and the error
entry. -/
theorem setSeedLoadsTheTableOrEndsInSeedRange : Obligations.SetSeedLoadsTheTableOrEndsInSeedRange := by
  refine fun s seed => ⟨fun h => ?loads, fun h => ?seedRange⟩
  case loads =>
    exact ⟨_, exec_setSeed_of_lt s h, deliver_endedWith _ (Nat.zero_le _), Nat.mod_eq_of_lt (h.trans (by decide)), rfl,
      rfl, rfl, rfl, rfl, (setSalt_hostSideKept s _ _).deliver []⟩
  case seedRange =>
    exact ⟨_, exec_setSeed_of_gt s h, raise_endedInError s _, raise_engineKept s _, raise_hostSideKept s _⟩

/-- Settles O17: each entry is the natural number that its formula gives. -/
theorem saltTablesFollowTheTenFormulas : Obligations.SaltTablesFollowTheTenFormulas := fun i h =>
  ⟨saltGen_toNat_of_formula h rfl,
    saltGen_toNat_of_formula h (saltF1_natCast h),
    saltGen_toNat_of_formula h (by simp only [saltFormula, saltF2]; omega),
    saltGen_toNat_of_formula h (saltF3_natCast h),
    saltGen_toNat_of_formula h (saltF4_natCast i),
    saltGen_toNat_of_formula h (by simp only [saltFormula, saltF5]; omega),
    saltGen_toNat_of_formula h (by simp only [saltFormula, saltF6]; omega),
    saltGen_toNat_of_formula h (by simp only [saltFormula, saltF7]; split <;> split <;> omega),
    saltGen_toNat_of_formula h (by simp only [saltFormula, saltF8]; split <;> split <;> omega),
    saltGen_toNat_of_formula h (saltF9_natCast i)⟩

/-- Settles O18: the range of the formulas, in which the truncation is the identity. -/
theorem saltFormulasStayInTheRangeOfAByte : Obligations.SaltFormulasStayInTheRangeOfAByte := fun seed _ h =>
  ⟨(saltFormula_range seed h).1, (saltFormula_range seed h).2, saltGen_toNat_eq_formula seed h⟩

end Sys2Proof.Claims
end

section
/-! The family of 41_lcg_prng_15bit.md: the generator and the scalars drawn from it on natural numbers, which operation
steps it, and which one reads it. -/

namespace Sys2Proof.Machine

open Safety

/-- One generator step on natural numbers (R110). -/
theorem prgStep_toNat (p : BitVec 32) : (prgStep p).toNat = (p.toNat * 0x343FD + 0x269EC3) % 4294967296 := by
  have hmul : Config.lcgMul.toNat = 0x343FD := rfl
  have hinc : Config.lcgInc.toNat = 0x269EC3 := rfl
  rw [prgStep, BitVec.toNat_add, BitVec.toNat_mul, hmul, hinc]
  omega

/-- The output of a new state on natural numbers: its bits 30:16 (R110). -/
theorem prgOutput_eq (p : BitVec 32) : prgOutput p = p.toNat / 65536 % 32768 := by
  rw [prgOutput, BitVec.toNat_and, BitVec.toNat_ushiftRight, Nat.shiftRight_eq_div_pow]
  exact Nat.and_two_pow_sub_one_eq_mod _ 15

/-- The output of a generator step is a 15-bit value (R110). -/
theorem prgNext_output_lt (p : BitVec 32) : (prgNext p).2 < 32768 := by
  rw [prgNext, prgOutput_eq]
  exact Nat.mod_lt _ (by decide)

/-- The scalar `a` is its formula: 16 bits hold every value of it (R114). -/
theorem deriveA_toNat (out : Nat) : (deriveA out).toNat = out % 65277 + 256 :=
  Nat.mod_eq_of_lt (by simp only [Config.aMod, Config.aAdd]; omega)

/-- The scalar `b` is its formula: a byte holds every value of it (R114). -/
theorem deriveB_toNat (out : Nat) : (deriveB out).toNat = out / 65536 % 155 + 100 := by
  rw [deriveB, Nat.shiftRight_eq_div_pow]
  exact Nat.mod_eq_of_lt (by simp only [Config.bMod, Config.bAdd]; omega)

/-- An operation that took effect reports no error. -/
theorem Effect.err {i : Instr} {s t : State} (h : Effect i s t) : t.err = .none := by
  obtain ⟨_, _, -, rfl⟩ | ⟨_, _, _, -, rfl⟩ | ⟨_, _, _, -, rfl⟩ | ⟨_, _, -, rfl⟩ := h.cases <;> rfl

/-- An operation that took effect stepped the generator if it is an encrypt and kept it if not (R113). -/
theorem Effect.prg {i : Instr} {s t : State} (h : Effect i s t) :
    t.prg = if isEncrypt i then prgStep s.prg else s.prg := by
  cases i with
  | setSeed => obtain ⟨_, rfl⟩ := h; rfl
  | setSkey => cases h; rfl
  | genKtab => cases h; rfl
  | encClient => obtain ⟨-, rfl⟩ := h; rfl
  | decClient => obtain ⟨-, rfl⟩ := h; rfl
  | encServer => obtain ⟨-, rfl⟩ := h; rfl
  | decServer => obtain ⟨-, rfl⟩ := h; rfl

/-- The generator after an instruction: stepped by an encrypt that ended without error, kept otherwise (R113). -/
theorem exec_prg {i : Instr} {s t : State} (h : exec i s = .next t) :
    t.prg = if isEncrypt i = true ∧ t.err = .none then prgStep s.prg else s.prg := by
  rcases exec_cases h with ⟨e, ⟨he, -⟩, rfl⟩ | heff
  · exact (if_neg fun hc => he hc.2).symm
  · simpa [heff.err] using heff.prg

/-- Checks that the generator does not enter, before an effect that does not read it, do the same over any generator
value and keep that value. -/
theorem afterChecks_setPrg {s t effect : State} {failed : Option ErrCode} (p : BitVec 32)
    (h : afterChecks s failed effect = .next t) :
    afterChecks (s.setPrg p) failed (effect.setPrg p) = .next (t.setPrg p) := by
  obtain ⟨e, rfl, rfl⟩ | ⟨rfl, rfl⟩ := afterChecks_cases h <;> rfl

/-- An instruction other than an encrypt does the same over any generator value and keeps that value (R113). -/
theorem exec_setPrg {i : Instr} {s t : State} (p : BitVec 32) (hi : isEncrypt i = false) (h : exec i s = .next t) :
    exec i (s.setPrg p) = .next (t.setPrg p) := by
  cases i with
  | setSeed seed =>
    obtain hs | hs := Nat.lt_or_ge seed 10
    · cases (exec_setSeed_of_lt s hs).symm.trans h
      exact exec_setSeed_of_lt (s.setPrg p) hs
    · cases (exec_setSeed_of_gt s hs).symm.trans h
      exact exec_setSeed_of_gt (s.setPrg p) hs
  | setSkey => exact afterChecks_setPrg p h
  | genKtab => exact afterChecks_setPrg p h
  | encClient => cases hi
  | decClient => exact afterChecks_setPrg p h
  | encServer => cases hi
  | decServer => exact afterChecks_setPrg p h

end Sys2Proof.Machine

namespace Sys2Proof.Safety

open Sys2Proof.Machine

/-- A sequence of commands runs on from the state its first command leaves (R59). -/
theorem execAll_cons {i : Instr} {s t : State} (is : List Instr) (h : exec i s = .next t) :
    execAll (i :: is) s = execAll is t := by
  rw [execAll, h]

/-- The encrypts done by a sequence of commands are those of its first command and those of the others. -/
theorem encryptsDone_cons {i : Instr} {s t : State} (is : List Instr) (h : exec i s = .next t) :
    encryptsDone (i :: is) s = (if isEncrypt i = true ∧ t.err = .none then 1 else 0) + encryptsDone is t := by
  rw [encryptsDone, h]

/-- After a sequence of commands the generator has stepped once for each encrypt done (R113). -/
theorem execAll_prg (is : List Instr) (s : State) :
    ∃ t, execAll is s = .next t ∧ t.prg = prgStep^[encryptsDone is s] s.prg := by
  induction is generalizing s with
  | nil => exact ⟨s, rfl, rfl⟩
  | cons i is ih =>
    obtain ⟨u, hu⟩ := exec_next i s
    obtain ⟨t, ht, hprg⟩ := ih u
    refine ⟨t, (execAll_cons is hu).trans ht, ?_⟩
    rw [hprg, exec_prg hu, encryptsDone_cons is hu, Nat.add_comm, Function.iterate_add_apply]
    split <;> rfl

end Sys2Proof.Safety

namespace Sys2Proof.Claims

open Sys2Proof.Machine Sys2Proof.Safety

/-- Settles O30: an error keeps the generator, and an effect steps it exactly when it is an encrypt's. -/
theorem generatorStepsOncePerSuccessfulEncrypt : Obligations.GeneratorStepsOncePerSuccessfulEncrypt :=
  fun _ _ _ h => exec_prg h

/-- Settles O31, by induction on the list of commands from any state. -/
theorem generatorCountsSuccessfulEncrypts : Obligations.GeneratorCountsSuccessfulEncrypts := execAll_prg

/-- Settles O44: neither the checks nor the effect of any other operation reads the generator. -/
theorem onlyEncryptReadsTheGenerator : Obligations.OnlyEncryptReadsTheGenerator :=
  fun _ _ _ p hi h => exec_setPrg p hi h

/-- Settles O26: the step and the output on natural numbers. -/
theorem generatorStepIsTheCongruence : Obligations.GeneratorStepIsTheCongruence :=
  fun p => ⟨prgStep_toNat p, prgOutput_eq (prgStep p)⟩

/-- Settles O27, by running the eight steps. -/
theorem generatorStartsWithTheListedEight : Obligations.GeneratorStartsWithTheListedEight :=
  ⟨by decide, by decide⟩

/-- Settles O28: the two formulas, each bounded by its modulus. -/
theorem scalarsAreDerivedWithoutTruncation : Obligations.ScalarsAreDerivedWithoutTruncation := by
  intro out
  exact ⟨deriveA_toNat out, deriveB_toNat out, (deriveA_toNat out).trans_le (by omega),
    (deriveB_toNat out).trans_le (by omega)⟩

/-- Settles O29: a 15-bit output is below the modulus of `a`, and its part above bit 15, which `b` is made of, is 0. -/
theorem drawnScalarBIsAlwaysOneHundred : Obligations.DrawnScalarBIsAlwaysOneHundred := by
  intro s
  have hout := prgNext_output_lt s.prg
  have ha : (DrawnA s).toNat = (prgNext s.prg).2 + 256 := by
    rw [DrawnA, deriveA_toNat, Nat.mod_eq_of_lt (by omega)]
  have hb : (DrawnB s).toNat = 100 := by
    rw [DrawnB, deriveB_toNat]
    omega
  exact ⟨ha, by omega, BitVec.eq_of_toNat_eq hb⟩

end Sys2Proof.Claims
end

section
/-! The family of 42_keystream_table_init.md: the hexadecimal text, the blocks and the bytes of the hash chain, and the
branches of `SET_SKEY` and `GEN_KTAB`. -/

namespace Sys2Proof.Machine

/-- The digit's character on natural numbers: a byte holds it (R120). -/
theorem hexChar_toNat {v : Nat} (h : v < 16) :
    (hexChar v).toNat = if v ≤ 9 then 0x30 + v else 0x61 + (v - 10) := by
  unfold hexChar
  split <;> exact Nat.mod_eq_of_lt (by omega)

/-- The two characters of a byte are those of its quotient and its remainder by 16 (R120). -/
theorem hexPair_eq (d : Byte) : hexPair d = [hexChar (d.toNat / 16), hexChar (d.toNat % 16)] := by
  have hhigh : (d >>> 4).toNat = d.toNat / 16 := by
    rw [BitVec.toNat_ushiftRight, Nat.shiftRight_eq_div_pow]
  have hlow : (d &&& 15).toNat = d.toNat % 16 := by
    rw [BitVec.toNat_and]
    exact Nat.and_two_pow_sub_one_eq_mod _ 4
  rw [hexPair, hhigh, hlow]

/-- The text of bytes begins with the two characters of the first byte (R120). -/
theorem hex_cons (b : Byte) (d : List Byte) :
    hex (b :: d) = hexChar (b.toNat / 16) :: hexChar (b.toNat % 16) :: hex d := by
  rw [hex, List.flatMap_cons, hexPair_eq]
  rfl

/-- The characters of byte `k` stand at `2 * k` and `2 * k + 1`, the high nibble's first (R120). -/
theorem hex_getElem? (d : List Byte) (k : Nat) (h : k < d.length) :
    (hex d)[2 * k]? = some (hexChar (d[k].toNat / 16)) ∧
      (hex d)[2 * k + 1]? = some (hexChar (d[k].toNat % 16)) := by
  induction d generalizing k with
  | nil => cases h
  | cons b d ih =>
    rw [hex_cons]
    cases k with
    | zero => exact ⟨rfl, rfl⟩
    | succ k => exact ih k (Nat.lt_of_succ_lt_succ h)

/-- The byte is the character of a hexadecimal digit. -/
def IsHexDigit (b : Byte) : Prop := ∃ v < 16, b = hexChar v

/-- A digit's character is `0` to `9` or `a` to `f`. -/
theorem IsHexDigit.range {b : Byte} (h : IsHexDigit b) :
    (0x30 ≤ b.toNat ∧ b.toNat ≤ 0x39) ∨ (0x61 ≤ b.toNat ∧ b.toNat ≤ 0x66) := by
  obtain ⟨v, hv, rfl⟩ := h
  rw [hexChar_toNat hv]
  split <;> omega

/-- The text of bytes has digits only. -/
theorem isHexDigit_of_mem_hex {d : List Byte} {b : Byte} (h : b ∈ hex d) : IsHexDigit b := by
  obtain ⟨c, -, hb⟩ := List.mem_flatMap.mp h
  have hc := c.isLt
  rw [hexPair_eq, List.mem_pair] at hb
  rcases hb with rfl | rfl <;> exact ⟨_, by omega, rfl⟩

/-- Every text of the chain has digits only, whatever the digest. -/
theorem isHexDigit_of_mem_hashChain {name : List Byte} {n : Nat} {b : Byte} (h : b ∈ hashChain name n) :
    IsHexDigit b := by
  induction n with
  | zero => exact isHexDigit_of_mem_hex h
  | succ n ih => exact (List.mem_append.mp h).elim ih isHexDigit_of_mem_hex

/-- Each text of the chain begins with every earlier one (R122). -/
theorem hashChain_prefix (name : List Byte) {n m : Nat} (h : n ≤ m) : hashChain name n <+: hashChain name m := by
  induction m, h using Nat.le_induction with
  | base => exact List.prefix_rfl
  | succ m _ ih => exact ih.trans (List.prefix_append _ _)

/-- The first `32 * (n + 1)` bytes of a table are the text `h_n` (R123). -/
theorem ktabGen_take (name : List Byte) {n : Nat} (h : n ≤ 31) :
    (ktabGen name).toList.take (32 * (n + 1)) = hashChain name n := by
  rw [ktabGen_toList, ← hashChain_length name n]
  exact (List.prefix_iff_eq_take.mp (hashChain_prefix name h)).symm

/-- The 32 bytes after the text `h_n` in a table are the text of its digest (R122). -/
theorem ktabGen_block (name : List Byte) {n : Nat} (h : n < 31) :
    ((ktabGen name).toList.drop (32 * (n + 1))).take 32 = hashText (hashChain name n) :=
  calc ((ktabGen name).toList.drop (32 * (n + 1))).take 32
      = ((ktabGen name).toList.take (32 * (n + 1 + 1))).drop (32 * (n + 1)) := by
        rw [List.take_drop, ← Nat.mul_succ]
    _ = (hashChain name n ++ hashText (hashChain name n)).drop (32 * (n + 1)) := by
        rw [ktabGen_take name h, hashChain]
    _ = hashText (hashChain name n) := List.drop_left' (hashChain_length name n)

/-- A region inside the input passes its check (R192). -/
theorem checkInside_of_le {offset count ilen : Nat} (h : offset + count ≤ ilen) :
    checkInside offset count ilen = none := if_pos h

/-- A region that ends after the input fails its check (R192). -/
theorem checkInside_of_gt {offset count ilen : Nat} (h : ilen < offset + count) :
    checkInside offset count ilen = some .outOfRange := if_neg (Nat.not_le.mpr h)

/-- `SET_SKEY` of nine bytes inside the input writes them as the key and delivers no bytes (R130). -/
theorem exec_setSkey_of_le {s : State} {offset : Nat} (h : offset + 9 ≤ s.ilen.toNat) :
    exec (.setSkey offset 9) s = .next ((s.setSkey (s.inputKey offset)).deliver []) := by
  rw [exec, execSetSkey, checkInside_of_le h]
  rfl

/-- `SET_SKEY` of another length ends in the error entry with `KEY_LENGTH` (R130). -/
theorem exec_setSkey_of_ne (s : State) (offset : Nat) {count : Nat} (h : count ≠ 9) :
    exec (.setSkey offset count) s = .next (s.raise .keyLength) := by
  rw [exec, execSetSkey, checkKeyLength, if_pos h]
  rfl

/-- `SET_SKEY` of nine bytes that end after the input ends in the error entry with `OUT_OF_RANGE` (R130). -/
theorem exec_setSkey_of_gt {s : State} {offset : Nat} (h : s.ilen.toNat < offset + 9) :
    exec (.setSkey offset 9) s = .next (s.raise .outOfRange) := by
  rw [exec, execSetSkey, checkInside_of_gt h]
  rfl

/-- `GEN_KTAB` of a name inside the input writes its table and delivers no bytes (R127). -/
theorem exec_genKtab_of_le {s : State} {offset count : Nat} (h : offset + count ≤ s.ilen.toNat) :
    exec (.genKtab offset count) s = .next ((s.setKtab (ktabGen (s.inputBytes offset count))).deliver []) := by
  rw [exec, execGenKtab, checkInside_of_le h]
  rfl

/-- `GEN_KTAB` of a name that ends after the input ends in the error entry with `OUT_OF_RANGE` (R127). -/
theorem exec_genKtab_of_gt {s : State} {offset count : Nat} (h : s.ilen.toNat < offset + count) :
    exec (.genKtab offset count) s = .next (s.raise .outOfRange) := by
  rw [exec, execGenKtab, checkInside_of_gt h]
  rfl

end Sys2Proof.Machine

namespace Sys2Proof.Claims

open Sys2Proof.Machine

/-- Settles O20: the three ends of `SET_SKEY`, a delivered empty result over the new key, and the error entry with one
of two codes. -/
theorem setSkeyLoadsNineBytesOrReportsWhy : Obligations.SetSkeyLoadsNineBytesOrReportsWhy := by
  refine fun s offset count => ⟨?loads, fun h => ?keyLength, ?outOfRange⟩
  case loads =>
    rintro rfl h
    exact ⟨_, exec_setSkey_of_le h, deliver_endedWith _ (Nat.zero_le _), fun j hj => tabulate_getElem 9 _ j hj, rfl, rfl,
      rfl, rfl, rfl, (setSkey_hostSideKept s _).deliver []⟩
  case keyLength =>
    exact ⟨_, exec_setSkey_of_ne s offset h, raise_endedInError s _, raise_engineKept s _, raise_hostSideKept s _⟩
  case outOfRange =>
    rintro rfl h
    exact ⟨_, exec_setSkey_of_gt h, raise_endedInError s _, raise_engineKept s _, raise_hostSideKept s _⟩

/-- Settles O21: the two ends of `GEN_KTAB`, with the hash chain over the name as the chain. -/
theorem genKtabBuildsTheHashChainOrEndsOutOfRange : Obligations.GenKtabBuildsTheHashChainOrEndsOutOfRange := by
  refine fun s offset count => ⟨fun h => ?builds, fun h => ?outOfRange⟩
  case builds =>
    exact ⟨_, hashChain (s.inputBytes offset count), exec_genKtab_of_le h, deliver_endedWith _ (Nat.zero_le _), rfl,
      fun _ _ => rfl, ktabGen_toList _, rfl, rfl, rfl, rfl, rfl, (setKtab_hostSideKept s _).deliver []⟩
  case outOfRange =>
    exact ⟨_, exec_genKtab_of_gt h, raise_endedInError s _, raise_engineKept s _, raise_hostSideKept s _⟩

/-- Settles O22: the digits, the text of any bytes, and that of the sixteen digest bytes. -/
theorem hexTextHasTheHighNibbleFirst : Obligations.HexTextHasTheHighNibbleFirst :=
  ⟨fun _ hv => hexChar_toNat hv, fun d => ⟨hex_length d, hex_getElem? d⟩, fun m =>
    ⟨hashText_length m, fun k hk => hex_getElem? (Config.h128 m).toList k (by simpa using hk)⟩⟩

/-- Settles O23: the table begins with every text of the chain, and each text is the one before it with the text of its
digest appended. -/
theorem keystreamTableBlocksChain : Obligations.KeystreamTableBlocksChain := fun name n hn =>
  ⟨ktabGen_take name (Nat.zero_le 31), by rw [ktabGen_block name hn, ktabGen_take name hn.le]⟩

/-- Settles O24: the table is a text of the chain, which has digits only. -/
theorem keystreamTableIsLowercaseHexText : Obligations.KeystreamTableIsLowercaseHexText := fun name _ hb =>
  (isHexDigit_of_mem_hashChain (ktabGen_toList name ▸ hb)).range

end Sys2Proof.Claims
end

section
/-! The family of 43_per_packet_keystream_xof.md: the bytes of the per-packet key, and the period of its index. -/

namespace Sys2Proof.Machine

/-- Key byte `i` is the table byte at `idx(i)` (R135). -/
theorem pkeyDerive_getElem (t : Table 1024) (a b i : Nat) (h : i < 9) :
    (pkeyDerive t a b)[i] = t[pkeyIndex a b i]'(pkeyIndex_lt a b i) :=
  tabulate_getElem 9 _ i h

/-- The index has period 1024 in `a` (R136). -/
theorem pkeyIndex_add_period (a b i : Nat) : pkeyIndex (a + 1024) b i = pkeyIndex a b i := by
  rw [pkeyIndex, pkeyIndex, ← Nat.add_assoc, Nat.add_mod_right]

/-- The key has period 1024 in `a`, since every index of it has (R136). -/
theorem pkeyDerive_add_period (t : Table 1024) (a b : Nat) : pkeyDerive t (a + 1024) b = pkeyDerive t a b :=
  Vector.ext fun i hi => by
    rw [pkeyDerive_getElem t _ b i hi, pkeyDerive_getElem t a b i hi]
    exact getElem_congr_idx (pkeyIndex_add_period a b i)

end Sys2Proof.Machine

namespace Sys2Proof.Claims

open Sys2Proof.Machine

/-- Settles O25: the bytes of the key by its reading law, and the period of the key in `a`. -/
theorem perPacketKeyReadsTheFormulasIndices : Obligations.PerPacketKeyReadsTheFormulasIndices := fun t a b =>
  ⟨pkeyDerive_getElem t a b, pkeyDerive_add_period t a b⟩

end Sys2Proof.Claims
end

section
/-! The family of 44_xor_transform_engine.md: the transform inside and outside its range, and the period of its mask. -/

namespace Sys2Proof.Machine

/-- Inside its range the transform XORs each byte with its mask (R140, R142). -/
theorem xform_getElem?_inside (buf : List Byte) {off cnt k : Nat} (key : Table 9) (seq : Byte) (salt : Table 256)
    (h : off ≤ k ∧ k < off + cnt) :
    (xform buf off cnt key seq salt)[k]? = (buf[k]?).map fun v => v ^^^ xformMask key seq salt (k - off) := by
  simp only [xform_getElem?, if_pos h, xformByte_eq_xor_mask]

/-- Outside its range the transform leaves the buffer as it was (R140). -/
theorem xform_getElem?_outside (buf : List Byte) {off cnt k : Nat} (key : Table 9) (seq : Byte) (salt : Table 256)
    (h : ¬ (off ≤ k ∧ k < off + cnt)) : (xform buf off cnt key seq salt)[k]? = buf[k]? := by
  simp only [xform_getElem?, if_neg h, Option.map_id']

/-- The transform undoes itself: inside the range the mask cancels (R143). -/
@[simp] theorem xform_xform (buf : List Byte) (off cnt : Nat) (key : Table 9) (seq : Byte) (salt : Table 256) :
    xform (xform buf off cnt key seq salt) off cnt key seq salt = buf := by
  refine List.ext_getElem? fun k => ?_
  by_cases h : off ≤ k ∧ k < off + cnt
  · have cancel (v m : Byte) : v ^^^ m ^^^ m = v := by rw [BitVec.xor_assoc, BitVec.xor_self, BitVec.xor_zero]
    rw [xform_getElem?_inside _ key seq salt h, xform_getElem?_inside buf key seq salt h, Option.map_map]
    simp only [Function.comp_def, cancel, Option.map_id']
  · rw [xform_getElem?_outside _ key seq salt h, xform_getElem?_outside buf key seq salt h]

/-- The salt index has period `9 * 256` (R144). -/
theorem saltIndex_add_period (i : Nat) : saltIndex (i + 2304) = saltIndex i := by
  simp only [saltIndex]; omega

/-- The mask has the period of the salt index, which is a multiple of the key's length (R144). -/
theorem xformMask_add_period (key : Table 9) (seq : Byte) (salt : Table 256) (i : Nat) :
    xformMask key seq salt (i + 2304) = xformMask key seq salt i := by
  have keyIndex : (i + 2304) % 9 = i % 9 := by omega
  simp only [xformMask, saltIndex_add_period, keyIndex]

end Sys2Proof.Machine

namespace Sys2Proof.Claims

open Sys2Proof.Machine

/-- Settles O32: the two reading laws of the transform, and the mask by its definition. -/
theorem transformXorsTheMaskInsideItsRangeOnly : Obligations.TransformXorsTheMaskInsideItsRangeOnly := by
  refine fun buf off cnt key seq salt _ => ⟨xform_length buf off cnt key seq salt, fun i hi => ?inside,
    fun k hk => xform_getElem?_outside buf key seq salt (by omega), fun _ => rfl⟩
  case inside =>
    rw [xform_getElem?_inside buf key seq salt (by omega), Nat.add_sub_cancel_left]

/-- Settles O33: the transform undoes itself. -/
theorem transformTwiceRestoresTheBuffer : Obligations.TransformTwiceRestoresTheBuffer := xform_xform

/-- Settles O34: the period of the mask and of the salt index. -/
theorem maskRepeatsEvery2304Positions : Obligations.MaskRepeatsEvery2304Positions := fun key seq salt i =>
  ⟨xformMask_add_period key seq salt i, saltIndex_add_period i⟩

end Sys2Proof.Claims
end

section
/-! The family of 45_checksum_unit.md: `DEC_CLIENT` reads no byte of the checksum. -/

namespace Sys2Proof.Machine

/-- `MemRead` depends on the bytes it reads alone. -/
theorem State.inputBytes_congr {s t : State} {base n : Nat}
    (h : ∀ j < n, t.inputByte (base + j) = s.inputByte (base + j)) : t.inputBytes base n = s.inputBytes base n :=
  List.map_congr_left fun j hj => h j (List.mem_range.mp hj)

/-- A header byte of a region stands no later than its place in the region, under either value of `HDR_BASE` (R161). -/
theorem headerIndex_le (base : Config.HdrBase) (offset k : Nat) : headerIndex base offset k ≤ offset + k := by
  cases base
  · exact Nat.le_add_left k offset
  · exact Nat.le_refl _

/-- Key selection reads no input byte (R163). -/
@[simp] theorem keySel_setIbuf (s : State) (m : Memory) (k2 : Bool) (a : BitVec 16) (b : Byte) :
    keySel (s.setIbuf m) k2 a b = keySel s k2 a b := rfl

/-- The checks of a data operation read no input byte (R192 to R197). -/
@[simp] theorem dataCheck_setIbuf (s : State) (m : Memory) (offset count least len : Nat) (k2 : Bool) :
    dataCheck (s.setIbuf m) offset count least len k2 = dataCheck s offset count least len k2 := rfl

/-- `DEC_CLIENT` is its checks, then the delivery of its payload (R170). -/
theorem exec_decClient (s : State) (offset count : Nat) (k2 : Bool) :
    exec (.decClient offset count k2) s = afterChecks s (dataCheck s offset count (10 + k2.toNat) count k2)
      (s.deliver (clientPayload s Config.hdrBase offset count k2)) := rfl

/-- The payload that `DEC_CLIENT` returns depends on no byte of the checksum: the header and the ciphered bytes end
before it, and the trailer begins after it (R152, R170). -/
theorem clientPayload_setIbuf {s : State} {m : Memory} {offset count : Nat} (base : Config.HdrBase) (k2 : Bool)
    (hcount : 10 ≤ count)
    (h : ∀ k, k < offset + count - 7 ∨ offset + count - 3 ≤ k → (s.setIbuf m).inputByte k = s.inputByte k) :
    clientPayload (s.setIbuf m) base offset count k2 = clientPayload s base offset count k2 := by
  have header (k : Nat) (hk : k < 2) :
      (s.setIbuf m).inputByte (headerIndex base offset k) = s.inputByte (headerIndex base offset k) :=
    h _ (.inl (by have := headerIndex_le base offset k; omega))
  have tag : (s.setIbuf m).tagByte base offset = s.tagByte base offset := header 0 (by decide)
  have seq : (s.setIbuf m).seqByte base offset = s.seqByte base offset := header 1 (by decide)
  have ciphered : (s.setIbuf m).inputBytes (offset + 2) (count - 9) = s.inputBytes (offset + 2) (count - 9) :=
    State.inputBytes_congr fun j hj => h _ (.inl (by omega))
  have trailerByte (k : Nat) (hk : count - 3 ≤ k) :
      (s.setIbuf m).inputByte (offset + k) = s.inputByte (offset + k) := h _ (.inr (by omega))
  have pair (xa : BitVec 16) (xb : Byte) :
      recoveredAB (s.setIbuf m) offset count xa xb = recoveredAB s offset count xa xb := by
    simp only [recoveredAB, trailerByte (count - 3) (by omega), trailerByte (count - 2) (by omega),
      trailerByte (count - 1) (by omega)]
  simp only [clientPayload, deciphered, tag, seq, ciphered, pair, keySel_setIbuf, State.setIbuf_salt]

end Sys2Proof.Machine

namespace Sys2Proof.Claims

open Sys2Proof.Machine

/-- Settles O46: the checks read no input byte, and the payload none of the checksum's. -/
theorem decClientNeverReadsTheChecksum : Obligations.DecClientNeverReadsTheChecksum := by
  intro s m offset count k2 hagree t ht
  rw [exec_decClient] at ht
  rw [exec_decClient, dataCheck_setIbuf]
  obtain ⟨e, hcheck, rfl⟩ | ⟨hcheck, rfl⟩ := afterChecks_cases ht
  · rw [hcheck]
    exact ⟨_, rfl, rfl, rfl⟩
  · obtain ⟨-, -, hmin, -, -⟩ := dataCheck_eq_none.mp hcheck
    rw [hcheck, clientPayload_setIbuf Config.hdrBase k2 (by omega) hagree]
    exact ⟨_, rfl, rfl, rfl⟩

end Sys2Proof.Claims
end

section
/-! The family of 46_packet_envelope_codec.md: the trailer and its inverse, the frames and the payloads byte by byte,
the keystream that a data operation reads, and the round trips. -/

namespace Sys2Proof.Machine

open Claims

/-! ### The trailer -/

/-- `UNTRAILER` joins the first and the last byte, the last one high (R166). -/
theorem untrailerA_eq_append (t0 t2 : Byte) (xa : BitVec 16) : untrailerA t0 t2 xa = (t2 ++ t0) ^^^ xa := by
  rw [untrailerA, BitVec.append_def, BitVec.shiftLeftZeroExtend_eq, BitVec.setWidth'_eq, BitVec.or_comm]

/-- Every three bytes are the trailer of the pair recovered from them (R166). -/
theorem trailer_untrailer (t0 t1 t2 : Byte) (xa : BitVec 16) (xb : Byte) :
    trailer (untrailerA t0 t2 xa) (untrailerB t1 xb) xa xb = [t0, t1, t2] := by
  have joined : untrailerA t0 t2 xa ^^^ xa = t2 ++ t0 := by
    rw [untrailerA_eq_append, BitVec.xor_assoc, BitVec.xor_self, BitVec.xor_zero]
  simp only [trailer, joined, BitVec.extractLsb'_append_eq_right, BitVec.extractLsb'_append_eq_left]
  exact congrArg ([t0, ·, t2]) (untrailerB_xor t1 xb)

/-- The pair is recovered from its trailer (R166). -/
theorem untrailer_of_trailer {a xa : BitVec 16} {b xb t0 t1 t2 : Byte} (h : trailer a b xa xb = [t0, t1, t2]) :
    untrailerA t0 t2 xa = a ∧ untrailerB t1 xb = b := by
  simp only [trailer, List.cons.injEq, and_true] at h
  obtain ⟨rfl, rfl, rfl⟩ := h
  refine ⟨?_, untrailerB_xor b xb⟩
  rw [untrailerA_eq_append, BitVec.extractLsb'_append_extractLsb', BitVec.xor_assoc, BitVec.xor_self, BitVec.xor_zero]

/-- The pair a decrypt recovers, with the indices of the last three bytes counted from the region's end (R170, R179). -/
theorem recoveredAB_eq (s : State) (offset : Nat) {count : Nat} (xa : BitVec 16) (xb : Byte) (h : 3 ≤ count) :
    recoveredAB s offset count xa xb =
      (untrailerA (s.inputByte (offset + count - 3)) (s.inputByte (offset + count - 1)) xa,
        untrailerB (s.inputByte (offset + count - 2)) xb) := by
  rw [recoveredAB, Nat.add_sub_assoc h, Nat.add_sub_assoc (by omega : 2 ≤ count),
    Nat.add_sub_assoc (by omega : 1 ≤ count)]

/-- A decrypt recovers the pair whose trailer ends the region (R166). -/
theorem recoveredAB_of_trailer {s : State} {offset n : Nat} {a xa : BitVec 16} {b xb : Byte}
    (h : s.inputBytes (offset + n) 3 = trailer a b xa xb) : recoveredAB s offset (n + 3) xa xb = (a, b) := by
  have lastThree : trailer a b xa xb =
      [s.inputByte (offset + n), s.inputByte (offset + n + 1), s.inputByte (offset + n + 2)] := h.symm
  obtain ⟨ha, hb⟩ := untrailer_of_trailer lastThree
  exact Prod.ext ha hb

/-! ### The header and the data operations -/

/-- The tag is the first input byte (R161). -/
@[simp] theorem State.tagByte_hdrBase (s : State) (offset : Nat) : s.tagByte Config.hdrBase offset = s.inputByte 0 :=
  rfl

/-- The sequence byte of a decrypt is the second input byte (R161). -/
@[simp] theorem State.seqByte_hdrBase (s : State) (offset : Nat) : s.seqByte Config.hdrBase offset = s.inputByte 1 :=
  rfl

/-- With `OFFSET = 0` the tag is the first input byte under either value of `HDR_BASE` (R161). -/
@[simp] theorem State.tagByte_zero (s : State) (base : Config.HdrBase) : s.tagByte base 0 = s.inputByte 0 := by
  cases base <;> rfl

/-- With `OFFSET = 0` the sequence byte is the second input byte under either value of `HDR_BASE` (R161). -/
@[simp] theorem State.seqByte_zero (s : State) (base : Config.HdrBase) : s.seqByte base 0 = s.inputByte 1 := by
  cases base <;> rfl

/-- `ENC_CLIENT` on an accepted region steps the generator and delivers the client frame (R165). -/
theorem exec_encClient_of_accepted {s : State} {offset count : Nat} (seq : Byte) {k2 : Bool}
    (h : RegionAccepted s offset count 1 (count + 9 + k2.toNat) k2) :
    exec (.encClient offset count seq k2) s =
      .next ((s.setPrg (prgNext s.prg).1).deliver (clientFrame s Config.hdrBase offset count seq k2)) := by
  rw [exec, execEncClient, encClientAt, dataCheck_eq_none.mpr h]
  rfl

/-- `DEC_CLIENT` on an accepted region delivers the client payload (R170). -/
theorem exec_decClient_of_accepted {s : State} {offset count : Nat} {k2 : Bool}
    (h : RegionAccepted s offset count (10 + k2.toNat) count k2) :
    exec (.decClient offset count k2) s = .next (s.deliver (clientPayload s Config.hdrBase offset count k2)) := by
  rw [exec_decClient, dataCheck_eq_none.mpr h]
  rfl

/-- `ENC_SERVER` on an accepted region steps the generator and delivers the server frame (R175). -/
theorem exec_encServer_of_accepted {s : State} {offset count : Nat} (seq : Byte) {k2 : Bool}
    (h : RegionAccepted s offset count 1 (count + 4) k2) :
    exec (.encServer offset count seq k2) s =
      .next ((s.setPrg (prgNext s.prg).1).deliver (serverFrame s Config.hdrBase offset count seq k2)) := by
  rw [exec, execEncServer, encServerAt, dataCheck_eq_none.mpr h]
  rfl

/-- `DEC_SERVER` on an accepted region delivers the server payload (R179). -/
theorem exec_decServer_of_accepted {s : State} {offset count : Nat} {k2 : Bool}
    (h : RegionAccepted s offset count 5 count k2) :
    exec (.decServer offset count k2) s = .next (s.deliver (serverPayload s Config.hdrBase offset count k2)) := by
  rw [exec, execDecServer, decServerAt, dataCheck_eq_none.mpr h]
  rfl

/-- The checks and the effect after them commute with a change of the state that commutes with the error entry. -/
theorem afterChecks_map {s t effect : State} {failed : Option ErrCode} (f : State → State)
    (hraise : ∀ e, (f s).raise e = f (s.raise e)) (h : afterChecks s failed effect = .next t) :
    afterChecks (f s) failed (f effect) = .next (f t) := by
  obtain ⟨e, rfl, rfl⟩ | ⟨rfl, rfl⟩ := afterChecks_cases h
  · exact congrArg Host.Outcome.next (hraise e)
  · rfl

/-- The state with another Keystream Table and another `KTAB_VALID`. -/
def State.replaceKtab (table : Table 1024) (valid : Bool) (s : State) : State :=
  { s with ktab := table, ktabValid := valid }

/-- A data operation with `K2 = 0` does the same over any Keystream Table, ready or not, and keeps it (R163, R194). -/
theorem exec_replaceKtab {i : Instr} {s t : State} (table : Table 1024) (valid : Bool) (hi : IsDataOp i false)
    (h : exec i s = .next t) : exec i (s.replaceKtab table valid) = .next (t.replaceKtab table valid) := by
  obtain ⟨_, _, _, rfl⟩ | ⟨_, _, rfl⟩ | ⟨_, _, _, rfl⟩ | ⟨_, _, rfl⟩ := hi <;>
    exact afterChecks_map (.replaceKtab table valid) (fun _ => rfl) h

/-- A data operation with `K2 = 1` does the same over any static keystream and keeps it (R163). -/
theorem exec_setSkey_of_dataOp {i : Instr} {s t : State} (key : Table 9) (hi : IsDataOp i true)
    (h : exec i s = .next t) : exec i (s.setSkey key) = .next (t.setSkey key) := by
  obtain ⟨_, _, _, rfl⟩ | ⟨_, _, rfl⟩ | ⟨_, _, _, rfl⟩ | ⟨_, _, rfl⟩ := hi <;>
    exact afterChecks_map (·.setSkey key) (fun _ => rfl) h

/-! ### The frames -/

/-- The transform of an assembled buffer is that of the bytes after the header (R165, R175). -/
theorem cipherBody_cons_cons (tag b : Byte) (w : List Byte) (key : Table 9) (seq : Byte) (salt : Table 256) :
    cipherBody (tag :: b :: w) key seq salt = tag :: b :: xform w 0 w.length key seq salt := by
  refine List.ext_getElem? fun k => ?_
  rw [cipherBody_getElem?]
  match k with
  | 0 | 1 => rfl
  | j + 2 =>
    by_cases h : j < w.length
    · simp [xform_getElem?_inside w key seq salt (show 0 ≤ j ∧ j < 0 + w.length by omega)]
    · simp [h]

/-- The tag, the sequence byte, and the bytes `w` transformed under the key that an encrypt draws: a frame up to its
checksum or its trailer (R160, R173). -/
def sealedBytes (s : State) (seq : Byte) (k2 : Bool) (w : List Byte) : List Byte :=
  s.inputByte 0 :: seq :: xform w 0 w.length (TransformKey s k2 (DrawnA s) (DrawnB s)) seq s.salt

/-- The header adds two bytes. -/
@[simp] theorem sealedBytes_length (s : State) (seq : Byte) (k2 : Bool) (w : List Byte) :
    (sealedBytes s seq k2 w).length = w.length + 2 := by
  simp [sealedBytes]

/-- A byte of `w` stands two places later in the frame, XORed with its mask (R142). -/
theorem sealedBytes_append_getElem? (s : State) (seq : Byte) (k2 : Bool) {w : List Byte} (rest : List Byte) {j : Nat}
    {v : Byte} (h : w[j]? = some v) :
    (sealedBytes s seq k2 w ++ rest)[2 + j]? =
      some (v ^^^ xformMask (TransformKey s k2 (DrawnA s) (DrawnB s)) seq s.salt j) := by
  obtain ⟨hj, -⟩ := List.getElem?_eq_some_iff.mp h
  rw [List.getElem?_append_left (by rw [sealedBytes_length]; omega), Nat.add_comm 2 j, sealedBytes,
    List.getElem?_cons_succ, List.getElem?_cons_succ, xform_getElem?_inside w _ seq s.salt (by omega), h]
  rfl

/-- What the transform of a client frame covers: the data bytes, the pad, and the dup tag when `K2 = 1` (R160). -/
def clientCovered (s : State) (offset count : Nat) (k2 : Bool) : List Byte :=
  s.inputBytes (offset + 1) (count - 1) ++ 0 :: dupTag k2 (s.inputByte 0)

/-- The transform covers `COUNT + K2` bytes: the pad makes up for the tag, which is not among them. -/
theorem clientCovered_length (s : State) (offset : Nat) {count : Nat} (k2 : Bool) (h : 1 ≤ count) :
    (clientCovered s offset count k2).length = count + k2.toNat := by
  simp [clientCovered]
  omega

/-- The data bytes come first. -/
theorem clientCovered_getElem?_of_lt (s : State) (offset : Nat) {count j : Nat} (k2 : Bool) (h : j < count - 1) :
    (clientCovered s offset count k2)[j]? = some (s.inputByte (offset + 1 + j)) := by
  rw [clientCovered, List.getElem?_append_left (by simpa using h), State.inputBytes_getElem? s _ _ j h]

/-- The pad and the dup tag follow the data bytes. -/
theorem clientCovered_getElem?_add (s : State) (offset count : Nat) (k2 : Bool) (j : Nat) :
    (clientCovered s offset count k2)[count - 1 + j]? = (0 :: dupTag k2 (s.inputByte 0))[j]? := by
  rw [clientCovered, List.getElem?_append_right (by simp), State.inputBytes_length, Nat.add_sub_cancel_left]

/-- The client frame: the sealed bytes, their checksum and the trailer (R160). -/
theorem clientFrame_eq (s : State) (offset count : Nat) (seq : Byte) (k2 : Bool) :
    clientFrame s Config.hdrBase offset count seq k2 =
      sealedBytes s seq k2 (clientCovered s offset count k2) ++
        (checksum (sealedBytes s seq k2 (clientCovered s offset count k2)) ++
          trailer (DrawnA s) (DrawnB s) Config.clientXorA Config.clientXorB) := by
  have plain : clientPlain s Config.hdrBase offset count seq k2 =
      s.inputByte 0 :: seq :: clientCovered s offset count k2 := by simp [clientPlain, clientCovered]
  rw [clientFrame, plain, cipherBody_cons_cons, ← List.append_assoc]
  rfl

/-- The server frame: the sealed bytes and the trailer (R173). -/
theorem serverFrame_eq (s : State) (offset count : Nat) (seq : Byte) (k2 : Bool) :
    serverFrame s Config.hdrBase offset count seq k2 =
      sealedBytes s seq k2 (s.inputBytes (offset + 1) (count - 1)) ++
        trailer (DrawnA s) (DrawnB s) Config.serverXorA Config.serverXorB := by
  have plain : serverPlain s Config.hdrBase offset count seq =
      s.inputByte 0 :: seq :: s.inputBytes (offset + 1) (count - 1) := rfl
  rw [serverFrame, plain, cipherBody_cons_cons]
  rfl

/-! ### The payloads -/

/-- A byte of the client payload after the tag: the region's byte XORed with its mask (R170). -/
theorem clientPayload_getElem? (s : State) (offset : Nat) {count j : Nat} (k2 : Bool)
    (h : j < count - 10 - k2.toNat) {a : BitVec 16} {b : Byte}
    (hab : recoveredAB s offset count Config.clientXorA Config.clientXorB = (a, b)) :
    (clientPayload s Config.hdrBase offset count k2)[1 + j]? =
      some (s.inputByte (offset + 2 + j) ^^^ xformMask (TransformKey s k2 a b) (s.inputByte 1) s.salt j) := by
  rw [clientPayload, hab, Nat.add_comm 1 j, List.getElem?_cons_succ, List.getElem?_take_of_lt (by omega),
    deciphered_getElem?, if_pos (by omega)]
  rfl

/-- A byte of the server payload after the tag: the region's byte XORed with its mask (R179). -/
theorem serverPayload_getElem? (s : State) (offset : Nat) {count j : Nat} (k2 : Bool) (h : j < count - 5)
    {a : BitVec 16} {b : Byte} (hab : recoveredAB s offset count Config.serverXorA Config.serverXorB = (a, b)) :
    (serverPayload s Config.hdrBase offset count k2)[1 + j]? =
      some (s.inputByte (offset + 2 + j) ^^^ xformMask (TransformKey s k2 a b) (s.inputByte 1) s.salt j) := by
  rw [serverPayload, hab, Nat.add_comm 1 j, List.getElem?_cons_succ, deciphered_getElem?, if_pos h]
  rfl

/-! ### Deciphering what another engine sealed -/

/-- The bytes that an operation reads from an input buffer that holds `f` are those of `f`. -/
theorem inputBytes_of_inputIs {s : State} {f : List Byte} (h : InputIs s f) {base n : Nat} (hn : base + n ≤ f.length) :
    s.inputBytes base n = (f.drop base).take n := by
  refine List.ext_getElem? fun j => ?_
  by_cases hj : j < n
  · rw [State.inputBytes_getElem? s base n j hj, List.getElem?_take_of_lt hj, List.getElem?_drop]
    exact (h.2 (base + j) (by omega)).symm
  · rw [List.getElem?_eq_none (by simpa using hj), List.getElem?_eq_none (by simp; omega)]

/-- The bytes that an operation reads where the input buffer holds `w` are `w`. -/
theorem inputBytes_of_inputIs_append {s : State} {p w rest : List Byte} (h : InputIs s (p ++ (w ++ rest))) :
    s.inputBytes p.length w.length = w := by
  rw [inputBytes_of_inputIs h (by simp), List.drop_left, List.take_left]

/-- Two engines with the same tables and keys select the same key (R163). -/
theorem keySel_of_sameKeys {s1 s2 : State} {k2 : Bool} (hk : SameKeys s1 s2 k2) (a : BitVec 16) (b : Byte) :
    keySel s2 k2 a b = TransformKey s1 k2 a b := by
  obtain ⟨-, hskey, hktab⟩ := hk
  cases k2 with
  | false => exact hskey
  | true =>
    obtain ⟨-, -, htable⟩ := hktab rfl
    exact congrArg (pkeyDerive · a.toNat b.toNat) htable

section Unsealing

variable {s1 s2 : State} {seq : Byte} {k2 : Bool} {w rest : List Byte} {xa : BitVec 16} {xb : Byte}

/-- The tag of a sealed input is the tag it was sealed with. -/
theorem inputByte_zero_of_sealed (h : InputIs s2 (sealedBytes s1 seq k2 w ++ rest)) :
    s2.inputByte 0 = s1.inputByte 0 :=
  (Option.some.inj (h.2 0 (Nat.succ_pos _))).symm

/-- The pair recovered from a sealed input is the pair drawn to seal it (R166). -/
theorem recoveredAB_of_sealed
    (h : InputIs s2 (sealedBytes s1 seq k2 w ++ (rest ++ trailer (DrawnA s1) (DrawnB s1) xa xb))) {count : Nat}
    (hcount : count = w.length + rest.length + 5) : recoveredAB s2 0 count xa xb = (DrawnA s1, DrawnB s1) := by
  have hlen : count = (sealedBytes s1 seq k2 w ++ rest).length + 3 := by simp; omega
  rw [← List.append_assoc, ← List.append_nil (trailer ..)] at h
  rw [hlen]
  exact recoveredAB_of_trailer ((Nat.zero_add _).symm ▸ inputBytes_of_inputIs_append h)

/-- Deciphering a sealed input gives the bytes that were sealed: the transform undoes itself (R143, R180). -/
theorem deciphered_of_sealed (hk : SameKeys s1 s2 k2) (h : InputIs s2 (sealedBytes s1 seq k2 w ++ rest)) :
    deciphered s2 Config.hdrBase 0 w.length (keySel s2 k2 (DrawnA s1) (DrawnB s1)) = w := by
  have hseq : s2.inputByte 1 = seq := (Option.some.inj (h.2 1 (Nat.succ_lt_succ (Nat.succ_pos _)))).symm
  have hsalt : s2.salt = s1.salt := hk.1
  have hread := inputBytes_of_inputIs_append (p := [s1.inputByte 0, seq])
    (w := xform w 0 w.length (TransformKey s1 k2 (DrawnA s1) (DrawnB s1)) seq s1.salt) h
  rw [xform_length] at hread
  rw [deciphered, State.seqByte_hdrBase, hseq, hsalt, keySel_of_sameKeys hk]
  exact (congrArg (xform · 0 w.length _ seq s1.salt) hread).trans (xform_xform ..)

variable {offset count : Nat}

/-- `DEC_CLIENT` of a client frame returns the region that was encrypted, its first byte replaced by the tag (R182). -/
theorem clientPayload_of_clientFrame (hk : SameKeys s1 s2 k2) (hcount : 1 ≤ count)
    (h : InputIs s2 (clientFrame s1 Config.hdrBase offset count seq k2)) :
    clientPayload s2 Config.hdrBase 0 (count + 9 + k2.toNat) k2 =
      s1.inputByte 0 :: s1.inputBytes (offset + 1) (count - 1) := by
  rw [clientFrame_eq] at h
  have hw := clientCovered_length s1 offset k2 hcount
  have hab := recoveredAB_of_sealed h (count := count + 9 + k2.toNat) (by rw [hw, checksum_length]; omega)
  have hm : count + 9 + k2.toNat - 9 = (clientCovered s1 offset count k2).length := by omega
  rw [clientPayload, hab, hm, deciphered_of_sealed hk h, State.tagByte_hdrBase, inputByte_zero_of_sealed h]
  exact congrArg _ (List.take_left' (by rw [State.inputBytes_length]; omega))

/-- `DEC_SERVER` of a server frame returns the region that was encrypted, its first byte replaced by the tag (R182). -/
theorem serverPayload_of_serverFrame (hk : SameKeys s1 s2 k2) (hcount : 1 ≤ count)
    (h : InputIs s2 (serverFrame s1 Config.hdrBase offset count seq k2)) :
    serverPayload s2 Config.hdrBase 0 (count + 4) k2 = s1.inputByte 0 :: s1.inputBytes (offset + 1) (count - 1) := by
  rw [serverFrame_eq] at h
  have hw := s1.inputBytes_length (offset + 1) (count - 1)
  have hab := recoveredAB_of_sealed (rest := []) h (count := count + 4) (by rw [hw, List.length_nil]; omega)
  have hm : count + 4 - 5 = (s1.inputBytes (offset + 1) (count - 1)).length := by omega
  rw [serverPayload, hab, hm, deciphered_of_sealed hk h, State.tagByte_hdrBase, inputByte_zero_of_sealed h]

end Unsealing

end Sys2Proof.Machine

namespace Sys2Proof.Claims

open Sys2Proof.Machine

/-- A delivered result keeps every register that carries meaning across operations (R31). -/
theorem deliver_engineKept (s : State) (r : List Byte) : EngineKept s (s.deliver r) := ⟨rfl, rfl, rfl, rfl, rfl, rfl⟩

/-- A delivered result keeps the host's side (R31). -/
theorem deliver_hostSideKept (s : State) (r : List Byte) : HostSideKept s (s.deliver r) :=
  HostSideKept.deliver ⟨rfl, fun _ => rfl, rfl, rfl, rfl⟩ r

/-- Settles O35: the bytes of the trailer are those of the masked pair, and recovery undoes it in both orders. -/
theorem trailerBytesAndTheirInverse : Obligations.TrailerBytesAndTheirInverse := by
  refine ⟨fun a b => ⟨?client, ?server⟩, fun a xa b xb t0 t1 t2 =>
    ⟨untrailer_of_trailer, trailer_untrailer t0 t1 t2 xa xb⟩⟩
  case client => simp only [trailer, BitVec.extractLsb'_xor]; rfl
  case server => simp only [trailer, BitVec.extractLsb'_xor]; rfl

/-- Settles O36: the frame is the sealed bytes, read through what they cover, then their checksum and the trailer. -/
theorem encClientDeliversTheClientFrame : Obligations.EncClientDeliversTheClientFrame := by
  refine ⟨fun _ => rfl, fun s offset count seq k2 h => ?_⟩
  obtain ⟨-, -, hmin, hcap, -⟩ := id h
  have hlen := clientFrame_length s Config.hdrBase offset seq k2 hmin
  have hbody := (sealedBytes_length s seq k2 _).trans (congrArg (· + 2) (clientCovered_length s offset k2 hmin))
  refine ⟨_, _, exec_encClient_of_accepted seq h, deliver_endedWith _ (hlen.trans_le hcap), by omega, ?_⟩
  rw [clientFrame_eq, Nat.add_right_comm count 2, List.take_left' hbody, List.drop_left' hbody]
  refine ⟨rfl, rfl, ⟨fun j hj => ?data, ?pad, fun hk2 => ?dupTag⟩, rfl, rfl, rfl, rfl, rfl, rfl, rfl,
    (setPrg_hostSideKept s _).deliver _⟩
  case data => exact sealedBytes_append_getElem? s seq k2 _ (clientCovered_getElem?_of_lt s offset k2 hj)
  case pad =>
    rw [show count + 1 = 2 + (count - 1) by omega]
    exact sealedBytes_append_getElem? s seq k2 _ (clientCovered_getElem?_add s offset count k2 0)
  case dupTag =>
    have hdup := clientCovered_getElem?_add s offset count k2 1
    rw [Nat.sub_add_cancel hmin, hk2] at hdup
    rw [hk2, Nat.add_comm count 2]
    exact sealedBytes_append_getElem? s seq true _ hdup

/-- Settles O37: the frame is the sealed data bytes and the trailer. -/
theorem encServerDeliversTheServerFrame : Obligations.EncServerDeliversTheServerFrame := by
  intro s offset count seq k2 h
  obtain ⟨-, -, hmin, hcap, -⟩ := id h
  have hlen := serverFrame_length s Config.hdrBase offset seq k2 hmin
  refine ⟨_, _, exec_encServer_of_accepted seq h, deliver_endedWith _ (hlen.trans_le hcap), by omega, ?_⟩
  rw [serverFrame_eq]
  refine ⟨rfl, rfl, fun j hj => sealedBytes_append_getElem? s seq k2 _ (State.inputBytes_getElem? s _ _ j hj),
    List.drop_left' ?_, rfl, rfl, rfl, rfl, rfl, rfl, (setPrg_hostSideKept s _).deliver _⟩
  rw [sealedBytes_length, State.inputBytes_length]
  omega

/-- Settles O38, from the length and the bytes of the client payload. -/
theorem decClientDeliversThePayload : Obligations.DecClientDeliversThePayload := by
  intro s offset count k2 h
  obtain ⟨-, -, hmin, hcap, -⟩ := id h
  have hlen := clientPayload_length s Config.hdrBase offset k2 hmin
  exact ⟨_, _, exec_decClient_of_accepted h, deliver_endedWith _ (hlen.trans_le (show _ ≤ 65532 by omega)), hlen, rfl,
    fun j hj => clientPayload_getElem? s offset k2 hj (recoveredAB_eq s offset _ _ (by omega)),
    deliver_engineKept s _, deliver_hostSideKept s _⟩

/-- Settles O39, from the length and the bytes of the server payload. -/
theorem decServerDeliversThePayload : Obligations.DecServerDeliversThePayload := by
  intro s offset count k2 h
  obtain ⟨-, -, hmin, hcap, -⟩ := id h
  have hlen := serverPayload_length s Config.hdrBase offset k2 hmin
  exact ⟨_, _, exec_decServer_of_accepted h, deliver_endedWith _ (hlen.trans_le (show _ ≤ 65532 by omega)), hlen, rfl,
    fun j hj => serverPayload_getElem? s offset k2 hj (recoveredAB_eq s offset _ _ (by omega)),
    deliver_engineKept s _, deliver_hostSideKept s _⟩

/-- Settles O45: with `K2 = 0` the checks and the key pass over the table, with `K2 = 1` over the static keystream. -/
theorem dataOperationUsesOnlyTheSelectedKeystream : Obligations.DataOperationUsesOnlyTheSelectedKeystream :=
  fun _ _ _ h => ⟨fun hi table valid => exec_replaceKtab table valid hi h,
    fun hi key => exec_setSkey_of_dataOp key hi h⟩

/-- Settles O47: at `OFFSET = 0` the tag and the sequence byte are the first two input bytes under either value. -/
theorem headerBasesAgreeAtOffsetZero : Obligations.HeaderBasesAgreeAtOffsetZero := by
  refine fun s base count seq k2 => ⟨?encClient, ?decClient, ?encServer, ?decServer⟩
  case encClient =>
    simp only [exec, execEncClient, encClientAt, clientFrame, clientPlain, State.tagByte_zero]
  case decClient =>
    simp only [exec, execDecClient, decClientAt, clientPayload, deciphered, State.tagByte_zero, State.seqByte_zero]
  case encServer =>
    simp only [exec, execEncServer, encServerAt, serverFrame, serverPlain, State.tagByte_zero]
  case decServer =>
    simp only [exec, execDecServer, decServerAt, serverPayload, deciphered, State.tagByte_zero, State.seqByte_zero]

/-- The checks of a decrypt accept a frame that is the whole input, long enough and within the capacity, when the table
it needs is ready. -/
theorem regionAccepted_of_inputIs {s1 s2 : State} {k2 : Bool} {f : List Byte} {least n : Nat} (hk : SameKeys s1 s2 k2)
    (h : InputIs s2 f) (hlen : f.length = n) (hpos : 0 < n) (hleast : least ≤ n) (hcap : n ≤ 65532) :
    RegionAccepted s2 0 n least n k2 := by
  obtain ⟨hilen, -⟩ := h
  obtain ⟨-, -, hktab⟩ := hk
  refine ⟨by omega, by omega, hleast, hcap, fun hk2 => ?_⟩
  obtain ⟨-, hvalid, -⟩ := hktab hk2
  exact hvalid

section RoundTrip

variable {s1 s2 t1 : State} {offset count : Nat} {seq : Byte} {k2 : Bool} {frame : List Byte}

/-- The client round trip of an accepted region: the encrypt ends without error with a frame of its length, and the
decrypt of the frame with the region's bytes after the tag (R180, R182). -/
theorem decClient_of_encClient (hk : SameKeys s1 s2 k2) (hr : t1.resultBytes = some frame) (hin : InputIs s2 frame)
    (h : RegionAccepted s1 offset count 1 (count + 9 + k2.toNat) k2)
    (ht : exec (.encClient offset count seq k2) s1 = .next t1) :
    t1.err = .none ∧ frame.length = count + 9 + k2.toNat ∧
      ∃ t2, exec (.decClient 0 (count + 9 + k2.toNat) k2) s2 = .next t2 ∧
        EndedWith t2 (s1.inputByte 0 :: s1.inputBytes (offset + 1) (count - 1)) := by
  obtain ⟨-, -, hmin, hcap, -⟩ := id h
  have hlen := clientFrame_length s1 Config.hdrBase offset seq k2 hmin
  cases (exec_encClient_of_accepted seq h).symm.trans ht
  cases (State.deliver_resultBytes _ (hlen.trans_le hcap)).symm.trans hr
  refine ⟨rfl, hlen, _,
    exec_decClient_of_accepted (regionAccepted_of_inputIs hk hin hlen (by omega) (by omega) hcap), ?_⟩
  rw [clientPayload_of_clientFrame hk hmin hin]
  exact deliver_endedWith s2 (by simp; omega)

/-- The server round trip of an accepted region (R181, R182). -/
theorem decServer_of_encServer (hk : SameKeys s1 s2 k2) (hr : t1.resultBytes = some frame) (hin : InputIs s2 frame)
    (h : RegionAccepted s1 offset count 1 (count + 4) k2)
    (ht : exec (.encServer offset count seq k2) s1 = .next t1) :
    t1.err = .none ∧ frame.length = count + 4 ∧
      ∃ t2, exec (.decServer 0 (count + 4) k2) s2 = .next t2 ∧
        EndedWith t2 (s1.inputByte 0 :: s1.inputBytes (offset + 1) (count - 1)) := by
  obtain ⟨-, -, hmin, hcap, -⟩ := id h
  have hlen := serverFrame_length s1 Config.hdrBase offset seq k2 hmin
  cases (exec_encServer_of_accepted seq h).symm.trans ht
  cases (State.deliver_resultBytes _ (hlen.trans_le hcap)).symm.trans hr
  refine ⟨rfl, hlen, _,
    exec_decServer_of_accepted (regionAccepted_of_inputIs hk hin hlen (by omega) (by omega) hcap), ?_⟩
  rw [serverPayload_of_serverFrame hk hmin hin]
  exact deliver_endedWith s2 (by simp; omega)

/-- The whole input is an accepted region when its frame fits and the tables agree (R192, R193, R194). -/
theorem regionAccepted_of_whole {len : Nat} (hk : SameKeys s1 s2 k2) (hpos : 1 ≤ s1.ilen.toNat) (hcap : len ≤ 65532) :
    RegionAccepted s1 0 s1.ilen.toNat 1 len k2 := by
  obtain ⟨-, -, hktab⟩ := hk
  refine ⟨hpos, by omega, hpos, hcap, fun hk2 => ?_⟩
  obtain ⟨hvalid, -, -⟩ := hktab hk2
  exact hvalid

end RoundTrip

/-- `MemRead` of at least one byte is the first byte and the others. -/
theorem inputBytes_eq_cons (s : State) {n : Nat} (h : 1 ≤ n) :
    s.inputBytes 0 n = s.inputByte 0 :: s.inputBytes 1 (n - 1) := by
  obtain ⟨m, rfl⟩ := Nat.exists_eq_add_of_le' h
  simp [State.inputBytes, List.range_succ_eq_map, Nat.add_comm 1]

/-- Settles O48: the client round trip of the region that is the whole input. -/
theorem clientRoundTripReturnsThePayload : Obligations.ClientRoundTripReturnsThePayload := by
  intro s1 s2 t1 seq k2 frame hk hpos hmax ht hr hin
  rw [inputBytes_eq_cons s1 hpos]
  exact decClient_of_encClient hk hr hin (regionAccepted_of_whole hk hpos (by omega)) ht

/-- Settles O49: the server round trip of the region that is the whole input. -/
theorem serverRoundTripReturnsThePayload : Obligations.ServerRoundTripReturnsThePayload := by
  intro s1 s2 t1 seq k2 frame hk hpos hmax ht hr hin
  rw [inputBytes_eq_cons s1 hpos]
  exact decServer_of_encServer hk hr hin (regionAccepted_of_whole hk hpos (by omega)) ht

/-- Settles O50: the two round trips of an accepted region. -/
theorem roundTripOfARegionReplacesItsFirstByte : Obligations.RoundTripOfARegionReplacesItsFirstByte := by
  refine fun s1 s2 t1 offset count seq k2 frame hk hr hin => ⟨fun h ht => ?client, fun h ht => ?server⟩
  case client =>
    obtain ⟨-, -, hdec⟩ := decClient_of_encClient hk hr hin h ht
    exact hdec
  case server =>
    obtain ⟨-, -, hdec⟩ := decServer_of_encServer hk hr hin h ht
    exact hdec

end Sys2Proof.Claims
end

section
/-! The family of 60_exceptions.md: how an operation ends, which of its checks a data operation reports, and what the
error entry leaves. -/

namespace Sys2Proof.Machine

/-- Only "no error" has the code 0 (R190). -/
theorem ErrCode.eq_none_iff_code (e : ErrCode) : e = .none ↔ e.code = 0 := by cases e <;> decide

/-- The codes an operation's own checks can report are 1 to 6 (R190). -/
theorem OwnError.code_range {e : ErrCode} (h : OwnError e) : 1 ≤ e.code.toNat ∧ e.code.toNat ≤ 6 := by
  obtain ⟨hnone, hillegal⟩ := h
  cases e with
  | none => exact absurd rfl hnone
  | illegalCommand => exact absurd rfl hillegal
  | seedRange | keyLength | outOfRange | countTooSmall | capacity | ktabNotReady => decide

/-- An instruction that ends with an error ends in the error entry, with a code of its own (R198). -/
theorem exec_eq_raise_of_err {i : Instr} {s t : State} (h : exec i s = .next t) (he : t.err ≠ .none) :
    ∃ e, OwnError e ∧ t = s.raise e := by
  rcases exec_cases h with hraise | heff
  · exact hraise
  · exact absurd heff.err he

/-- Before an effect that reports no error, checks decide the error reported: the failing one's, or none (R197). -/
theorem afterChecks_err {s effect : State} (failed : Option ErrCode) (h : effect.err = .none) :
    ∃ t, afterChecks s failed effect = .next t ∧ t.err = failed.getD .none := by
  cases failed with
  | none => exact ⟨effect, rfl, h⟩
  | some e => exact ⟨s.raise e, rfl, rfl⟩

end Sys2Proof.Machine

namespace Sys2Proof.Claims

open Sys2Proof.Machine

/-- The error that the checks of a data operation report is that of the first to fail, in the order range, minimum,
capacity, table (R197). -/
theorem dataCheck_getD (s : State) (offset count least len : Nat) (k2 : Bool) :
    (dataCheck s offset count least len k2).getD .none = FirstFailure s offset count least len k2 := by
  rw [FirstFailure, dataCheck]
  split
  next hrange => rw [checkRange, if_neg hrange]; rfl
  next hrange =>
    rw [checkRange, if_pos (not_not.mp hrange), Option.none_or]
    split
    next hmin => rw [checkMin, if_pos hmin]; rfl
    next hmin =>
      rw [checkMin, if_neg hmin, Option.none_or]
      split
      next hcap => rw [checkCap, if_pos hcap]; rfl
      next hcap =>
        rw [checkCap, if_neg hcap, Option.none_or, checkKtab]
        split <;> rfl

/-- Checks of a data operation before a delivered result: the error reported is the first failure (R197). -/
theorem afterDataCheck_err (s u : State) (offset count least len : Nat) (k2 : Bool) (r : List Byte) :
    ∃ t, afterChecks s (dataCheck s offset count least len k2) (u.deliver r) = .next t ∧
      t.err = FirstFailure s offset count least len k2 :=
  dataCheck_getD s offset count least len k2 ▸ afterChecks_err _ (u.deliver_err r)

/-- Settles O11: the end of every instruction, and the error entry with an own code where the end is an error. -/
theorem everyOperationEndsInExactlyOneWay : Obligations.EveryOperationEndsInExactlyOneWay := by
  intro i s
  obtain ⟨t, ht⟩ := exec_next i s
  obtain ⟨hbusy, hdone, -⟩ := exec_ends ht
  refine ⟨t, ht, hbusy, hdone, fun herr => ?_, t.err.eq_none_iff_code⟩
  obtain ⟨e, hown, rfl⟩ := exec_eq_raise_of_err ht herr
  exact ⟨s.raise_olen e, hown.code_range⟩

/-- Settles O40: each data operation is its checks and then the delivery of a result. -/
theorem dataOperationsReportTheFirstFailingCheck : Obligations.DataOperationsReportTheFirstFailingCheck :=
  fun s offset count _ k2 =>
    ⟨afterDataCheck_err s (s.setPrg _) offset count 1 (count + 9 + k2.toNat) k2 _,
      afterDataCheck_err s s offset count (10 + k2.toNat) count k2 _,
      afterDataCheck_err s (s.setPrg _) offset count 1 (count + 4) k2 _,
      afterDataCheck_err s s offset count 5 count k2 _⟩

/-- Settles O41: an instruction that ends in an error ends in the error entry, which keeps the rest and has no result. -/
theorem errorsLeaveTheEngineAsItWas : Obligations.ErrorsLeaveTheEngineAsItWas := by
  intro i s t h herr
  obtain ⟨e, -, rfl⟩ := exec_eq_raise_of_err h herr
  exact ⟨raise_endedInError s e, raise_engineKept s e, raise_hostSideKept s e, fun _ => rfl⟩

end Sys2Proof.Claims
end

section
/-! The host's side of the machine: what each of its moves does to a word written to `CMD`, the registers, the result
window, the input and the bus (R34, R53, R56, R77, R195, R215, R221). -/

namespace Sys2Proof.Machine

/-! ### A word written to `CMD` -/

/-- A word that selects no row ends at once in the error entry with `ILLEGAL_COMMAND` (R195). -/
theorem writeCmd_of_unmatched {s : State} {w : BitVec 64} (hb : s.busy = false)
    (h : ∀ o : Opcode, o.selects w = false) : writeCmd w s = .next (s.accept.raise .illegalCommand) := by
  cases hr : selectRow w with
  | some o => exact absurd (selects_of_selectRow hr) (by simp [h o])
  | none => exact writeCmd_of_error hb (decode_of_selectRow_none hr)

/-- The word of a well-formed instruction written to an idle block is accepted and performed. -/
theorem writeCmd_encode {s : State} {i : Instr} (hb : s.busy = false) (h : i.WellFormed) :
    writeCmd (encode i) s = exec i s.accept :=
  writeCmd_of_decode hb (decode_encode h)

/-! ### The registers and the result window -/

/-- The registers a host read shows, number by number (R34). -/
theorem State.regValue_eq_ite (s : State) (n : Nat) :
    s.regValue n = if n = 1 then s.status.zeroExtend 64 else if n = 2 then s.ilen.zeroExtend 64
      else if n = 3 then s.olen.zeroExtend 64 else if n = 4 then s.seed.zeroExtend 64 else 0 := by
  match n with
  | 0 | 1 | 2 | 3 | 4 => rfl
  | n + 5 => simp [State.regValue]

/-- A write to a register number other than those of `CMD` and `ILEN` has no effect (R34). -/
theorem writeReg_of_ne {n : Nat} (v : BitVec 64) (s : State) (h0 : n ≠ 0) (h2 : n ≠ 2) :
    writeReg n v s = .next s := by
  match n with
  | 0 => exact absurd rfl h0
  | 1 => rfl
  | 2 => exact absurd rfl h2
  | _ + 3 => rfl

/-- A window read the host may make of a byte that holds a value answers the byte (R53). -/
theorem readResult_of_read {s : State} {k : Nat} {v : Byte} (h : Safety.mayReadResult s k)
    (hv : s.scratch.read k = some v) : readResult k s = .next (s.answer (v.zeroExtend 64)) := by
  have hif : s.done = true ∧ s.err = .none ∧ k < s.olen.toNat := h
  rw [readResult, if_pos hif, hv]

/-- A window read the host may not make is refused (R53). -/
theorem readResult_of_not_may {s : State} {k : Nat} (h : ¬ Safety.mayReadResult s k) :
    readResult k s = .refused (.unspecifiedResult k) :=
  if_neg h

/-- A result has `OLEN` bytes, each at its index of `SCRATCH` (R30). -/
theorem State.resultBytes_some {s : State} {r : List Byte} (h : s.resultBytes = some r) :
    r.length = s.olen.toNat ∧ ∀ k < s.olen.toNat, s.scratch.read k = r[k]? := by
  obtain ⟨hlen, hread⟩ := Memory.readBytes_some h
  exact ⟨hlen, fun k hk => by simpa using hread k hk⟩

/-! ### The directives -/

/-- A result fits the input buffer: its length is `OLEN`, of 16 bits (R31, R77). -/
theorem State.resultBytes_length_le {s : State} {r : List Byte} (h : s.resultBytes = some r) :
    r.length ≤ Config.ibufCap := by
  have hlt := s.olen.isLt
  obtain ⟨hlen, -⟩ := State.resultBytes_some h
  simp only [Config.ibufCap]
  omega

/-- The directive `.ibuf` of bytes that fit is one write of the input (R77). -/
theorem loadIbuf_of_le {bytes : List Byte} (s : State) (h : bytes.length ≤ Config.ibufCap) :
    loadIbuf bytes s = inputWrite s (s.loadInput bytes) :=
  if_pos h

/-- The directive `.ibuf_from_result` of a result is one write of the input (R77). -/
theorem ibufFromResult_of_some {s : State} {r : List Byte} (h : s.resultBytes = some r) :
    ibufFromResult s = inputWrite s (s.loadInput r) := by
  simp only [ibufFromResult, h, loadIbuf_of_le s (State.resultBytes_length_le h)]

/-- The directive `.ibuf_from_result` where there is no result is refused (assumption 15). -/
theorem ibufFromResult_of_none {s : State} (h : s.resultBytes = none) :
    ibufFromResult s = .refused (.unspecifiedResult 0) := by
  simp only [ibufFromResult, h]

/-- A byte beyond those loaded is as it was. -/
theorem State.loadInput_inputByte_of_le (s : State) {bytes : List Byte} {k : Nat} (h : bytes.length ≤ k) :
    (s.loadInput bytes).inputByte k = s.inputByte k := by
  have hread : (s.loadInput bytes).ibuf.read k = s.ibuf.read k := by
    simp only [State.loadInput, State.setIlen_ibuf, State.setIbuf_ibuf, Memory.read_writeBytes]
    exact if_neg (by omega)
  simp only [State.inputByte, hread]
  rfl

/-- The input bytes after the host has written one of them. -/
theorem State.inputByte_setIbuf_write (s : State) (k j : Nat) (v : Byte) :
    (s.setIbuf (s.ibuf.write k v)).inputByte j = if j = k then v else s.inputByte j := by
  simp only [State.inputByte, State.setIbuf_ibuf, State.setIbuf_ibufFree, Memory.read_write]
  by_cases h : j = k
  · simp only [if_pos h]
  · simp only [if_neg h]

/-! ### The bus -/

/-- The bus addresses a host writes the input at: the two bytes of `ILEN` and the input window (R56). -/
abbrev InputAddress (addr : Nat) : Prop :=
  addr = 0x10 ∨ addr = 0x11 ∨ (0x10000 ≤ addr ∧ addr ≤ 0x1FFFE)

/-- A byte written at an address of the input is a write of the input. -/
theorem busWriteByte_of_input {addr : Nat} (v : Byte) (s : State) (h : InputAddress addr) :
    ∃ t, busWriteByte addr v s = inputWrite s t := by
  obtain rfl | rfl | h := h
  · exact ⟨_, rfl⟩
  · exact ⟨_, rfl⟩
  · exact ⟨_, by rw [busWriteByte, if_neg (by omega), if_neg (by omega), if_pos h]⟩

/-- A byte written in the input window is the write of that input byte (R56). -/
theorem busWriteByte_window {k : Nat} (v : Byte) (s : State) (h : k < Config.ibufCap) :
    busWriteByte (0x10000 + k) v s = inputWrite s (s.setIbuf (s.ibuf.write k v)) := by
  simp only [Config.ibufCap] at h
  rw [busWriteByte, if_neg (by omega), if_neg (by omega), if_pos (by omega), Nat.add_sub_cancel_left]

/-- A byte written at any other address outside `CMD` has no effect (R56). -/
theorem busWriteByte_of_not_input {addr : Nat} (v : Byte) (s : State) (h : ¬ InputAddress addr) :
    busWriteByte addr v s = .next s := by
  obtain ⟨hlow, hhigh, hwindow⟩ : addr ≠ 0x10 ∧ addr ≠ 0x11 ∧ ¬(0x10000 ≤ addr ∧ addr ≤ 0x1FFFE) := by
    simpa only [not_or] using h
  rw [busWriteByte, if_neg hlow, if_neg hhigh, if_neg hwindow]

/-- Bytes of which the first is written go on with the others at the next address. -/
theorem busWriteBytes_cons_of_next {addr : Nat} {v : Byte} {s t : State} (bs : List Byte)
    (h : busWriteByte addr v s = .next t) : busWriteBytes addr (v :: bs) s = busWriteBytes (addr + 1) bs t := by
  simp only [busWriteBytes, h]

/-- One byte written is the write of that byte. -/
theorem busWriteBytes_singleton (addr : Nat) (v : Byte) (s : State) :
    busWriteBytes addr [v] s = busWriteByte addr v s := by
  cases h : busWriteByte addr v s <;> simp only [busWriteBytes, h]

/-- From address 8 on, a bus write is the write of its bytes (R56). -/
theorem busWrite_of_ge {addr : Nat} (bytes : List Byte) (s : State) (h : 8 ≤ addr) :
    busWrite addr bytes s = busWriteBytes addr bytes s := by
  rw [busWrite, if_neg (by omega), if_neg (by omega)]

/-- A bus write of the eight bytes of a word at address 0 writes the word to `CMD` (R54, R56). -/
theorem busWrite_bytesOfWord (w : BitVec 64) (s : State) : busWrite 0 (bytesOfWord w) s = writeCmd w s := by
  rw [busWrite, if_pos ⟨rfl, by simp [bytesOfWord]⟩, wordOfBytes_bytesOfWord]

/-- A bus write of one byte of `CMD` is refused (assumption 11). -/
theorem busWrite_partial {addr : Nat} (v : Byte) (s : State) (h : addr < 8) :
    busWrite addr [v] s = .refused .partialCommandWrite := by
  rw [busWrite, if_neg (by simp), if_pos ⟨h, by simp⟩]

/-- While the block is busy, bytes of which one is written to the input are refused: those before it change nothing
(R221, assumption 12). -/
theorem busWriteBytes_of_busy {s : State} (hb : s.busy = true) {addr : Nat} {bytes : List Byte}
    (h : ∃ j < bytes.length, InputAddress (addr + j)) :
    busWriteBytes addr bytes s = .refused .inputWrittenWhileBusy := by
  induction bytes generalizing addr with
  | nil => obtain ⟨j, hj, -⟩ := h; cases hj
  | cons b bs ih =>
    by_cases haddr : InputAddress addr
    · obtain ⟨t, ht⟩ := busWriteByte_of_input b s haddr
      simp only [busWriteBytes, ht, inputWrite_of_busy t hb]
    · rw [busWriteBytes_cons_of_next bs (busWriteByte_of_not_input b s haddr)]
      obtain ⟨j, hj, hin⟩ := h
      cases j with
      | zero => exact absurd hin haddr
      | succ j => exact ih ⟨j, Nat.lt_of_succ_lt_succ hj, by rwa [Nat.add_assoc, Nat.add_comm 1]⟩

/-- While the block is idle a byte on the bus, outside `CMD`, is written. -/
theorem busWriteByte_next {s : State} (hb : s.busy = false) (addr : Nat) (v : Byte) :
    ∃ t, busWriteByte addr v s = .next t := by
  by_cases haddr : InputAddress addr
  · obtain ⟨t, ht⟩ := busWriteByte_of_input v s haddr
    exact ⟨t, ht.trans (inputWrite_of_idle t hb)⟩
  · exact ⟨s, busWriteByte_of_not_input v s haddr⟩

/-- A host edit keeps `BUSY`. -/
theorem HostEdit.busy {s t : State} (h : HostEdit s t) : t.busy = s.busy := by
  obtain ⟨_, _, _, rfl⟩ := h
  rfl

/-- A host edit keeps the moves to come. -/
theorem HostEdit.inbox {s t : State} (h : HostEdit s t) : t.inbox = s.inbox := by
  obtain ⟨_, _, _, rfl⟩ := h
  rfl

/-- While the block is idle, bytes on the bus, outside `CMD`, are written. -/
theorem busWriteBytes_next {s : State} (hb : s.busy = false) (addr : Nat) (bytes : List Byte) :
    ∃ t, busWriteBytes addr bytes s = .next t := by
  induction bytes generalizing addr s with
  | nil => exact ⟨s, rfl⟩
  | cons b bs ih =>
    obtain ⟨t, ht⟩ := busWriteByte_next hb addr b
    rw [busWriteBytes_cons_of_next bs ht]
    exact ih ((busWriteByte_edit ht).busy.trans hb) (addr + 1)

/-- A byte read in the input window is the read of that input byte (R56). -/
theorem busRead_input {k : Nat} (s : State) (h : k < 65535) :
    busRead (0x10000 + k) s = .next (s.answer ((s.inputByte k).zeroExtend 64)) := by
  rw [busRead, if_neg (by omega), if_pos (by omega), Nat.add_sub_cancel_left]

/-- A byte read in the result window is the read of that window index (R56). -/
theorem busRead_window {k : Nat} (s : State) (h : k < 65532) : busRead (0x20000 + k) s = readResult k s := by
  rw [busRead, if_neg (by omega), if_neg (by omega), if_pos (by omega), Nat.add_sub_cancel_left]

/-- A byte read at a reserved address is 0 (R56). -/
theorem busRead_reserved {addr : Nat} (s : State)
    (h : (0x28 ≤ addr ∧ addr < 0x10000) ∨ addr = 0x1FFFF ∨ 0x2FFFC ≤ addr) : busRead addr s = .next (s.answer 0) := by
  rw [busRead, if_neg (by omega), if_neg (by omega), if_neg (by omega)]

/-- Two bytes side by side as a number: the left one is the high byte (R54). -/
theorem append_byte_toNat (high low : Byte) : (high ++ low).toNat = high.toNat * 256 + low.toNat := by
  rw [BitVec.toNat_append, ← Nat.shiftLeft_add_eq_or_of_lt low.isLt, Nat.shiftLeft_eq]

/-- A byte of a word, zero-extended, is the word shifted and masked (R54). -/
theorem byteOfWord_zeroExtend (w : BitVec 64) (j : Nat) :
    (byteOfWord w j).zeroExtend 64 = (w >>> (8 * j)) &&& 0xFF := by
  apply BitVec.eq_of_toNat_eq
  rw [byteOfWord, BitVec.toNat_setWidth, BitVec.extractLsb'_toNat, BitVec.toNat_and, BitVec.toNat_ushiftRight,
    show (0xFF : BitVec 64).toNat = 2 ^ 8 - 1 from rfl, Nat.and_two_pow_sub_one_eq_mod]
  exact Nat.mod_eq_of_lt ((Nat.mod_lt _ (by decide)).trans (by decide))

/-- A byte read at `8 * n + j` is byte `j` of register `n` (R56). -/
theorem busRead_register {n j : Nat} (s : State) (hn : n < 5) (hj : j < 8) :
    busRead (8 * n + j) s = .next (s.answer (((s.regValue n) >>> (8 * j)) &&& 0xFF)) := by
  rw [busRead, if_pos (by omega), show (8 * n + j) / 8 = n by omega, show (8 * n + j) % 8 = j by omega,
    byteOfWord_zeroExtend]

/-! ### The reset and several steps -/

/-- `STATUS` after a reset in any state (R39, R215). -/
theorem State.resetNow_status (s : State) : s.resetNow.status = 0 :=
  show State.reset.status = 0 by decide

/-- A run that begins with a step to `t` goes on from `t`. -/
theorem run_succ_of_step {s t : State} (k : Nat) (h : step s = .next t) :
    Host.Core.run Sys2Proof.core (k + 1) s = Host.Core.run Sys2Proof.core k t := by
  have hcore : Sys2Proof.core.step s = .next t := h
  simp only [Host.Core.run, hcore]

end Sys2Proof.Machine
end

section
/-! The family of the host's moves: a host that keeps its duties is never stopped (R228, R229), and the statements about
one step. -/

namespace Sys2Proof.Safety

open Sys2Proof.Machine

/-- A window read that keeps its duty answers: the specified bytes of `SCRATCH` are those below `OLEN` (R30, R53). -/
theorem readResult_next {s : State} {k : Nat} (hs : Inv s) (h : mayReadResult s k) :
    ∃ t, readResult k s = .next t := by
  obtain ⟨-, -, hk⟩ := id h
  have hlisted : k ∈ s.scratch.map Prod.fst := by rw [hs.scratch_is_result]; exact List.mem_range.mpr hk
  obtain ⟨v, hv⟩ := Memory.read_of_listed hlisted
  exact ⟨_, readResult_of_read h hv⟩

/-- In a state that meets the invariant there is a result to read, perhaps an empty one (R30, R31). -/
theorem Inv.resultBytes {s : State} (hs : Inv s) : ∃ r, s.resultBytes = some r := by
  obtain ⟨r, hr, -⟩ := Memory.readBytes_of_listed (m := s.scratch) (base := 0) (n := s.olen.toNat) fun j hj => by
    rw [hs.scratch_is_result, Nat.zero_add]
    exact List.mem_range.mpr hj
  exact ⟨r, hr⟩

/-- A word written to `CMD` of an idle block answers a next state. -/
theorem writeCmd_next {s : State} (w : BitVec 64) (hb : s.busy = false) : ∃ t, writeCmd w s = .next t := by
  obtain ⟨t, ht, -⟩ := writeCmd_ends w hb
  exact ⟨t, ht⟩

/-- A bus write that keeps its duty answers: it writes `CMD` whole, or none of it. -/
theorem busWrite_next {s : State} {addr : Nat} {bytes : List Byte} (hb : s.busy = false)
    (h : hostDuty (.busWrite addr bytes) s) : ∃ t, busWrite addr bytes s = .next t := by
  obtain haddr | haddr := Nat.lt_or_ge addr 8
  · obtain rfl | ⟨rfl, hlen⟩ := h haddr
    · exact ⟨s, by simp [busWrite, busWriteBytes]⟩
    · rw [busWrite, if_pos ⟨rfl, hlen⟩]
      exact writeCmd_next _ hb
  · rw [busWrite_of_ge bytes s haddr]
    exact busWriteBytes_next hb addr bytes

/-- A bus read that keeps its duty answers: only in the result window is there a duty. -/
theorem busRead_next {s : State} {addr : Nat} (hs : Inv s) (h : hostDuty (.busRead addr) s) :
    ∃ t, busRead addr s = .next t := by
  rw [busRead]
  split
  · exact ⟨_, rfl⟩
  · split
    · exact ⟨_, rfl⟩
    · split
      next hwindow => exact readResult_next hs (h hwindow.1 hwindow.2)
      next => exact ⟨_, rfl⟩

/-- A host move that keeps its duty, in a state that meets the invariant, answers a next state (R228, R229). -/
theorem hostMove_next {m : HostMove} {s : State} (hs : Inv s) (h : hostDuty m s) : ∃ t, hostMove m s = .next t := by
  have hb := hs.idle
  cases m with
  | reset => exact ⟨_, rfl⟩
  | command w => exact writeCmd_next w hb
  | writeReg n v =>
    match n with
    | 0 => exact writeCmd_next v hb
    | 2 => exact ⟨_, inputWrite_of_idle _ hb⟩
    | 1 | _ + 3 => exact ⟨s, rfl⟩
  | readReg n => exact ⟨_, rfl⟩
  | writeIbuf k v => exact ⟨_, (indexed_of_lt _ h).trans (inputWrite_of_idle _ hb)⟩
  | readIbuf k => exact ⟨_, indexed_of_lt _ h⟩
  | writeResult k v => exact ⟨s, indexed_of_lt _ h⟩
  | readResult k =>
    obtain ⟨-, -, hk⟩ := id h
    obtain ⟨t, ht⟩ := readResult_next hs h
    exact ⟨t, (indexed_of_lt _ (hk.trans_le hs.olen_fits)).trans ht⟩
  | busWrite addr bytes => exact busWrite_next hb h
  | busRead addr => exact busRead_next hs h
  | loadIbuf bytes => exact ⟨_, (loadIbuf_of_le s h).trans (inputWrite_of_idle _ hb)⟩
  | ibufFromResult =>
    obtain ⟨r, hr⟩ := hs.resultBytes
    exact ⟨_, (ibufFromResult_of_some hr).trans (inputWrite_of_idle _ hb)⟩

end Sys2Proof.Safety

namespace Sys2Proof.Claims

open Sys2Proof.Machine Sys2Proof.Safety

/-- A host edit writes nothing that the host cannot write directly, also when the move is taken from the queue before it
(R228). -/
theorem notHostWritableKept_of_edit {s t : State} {rest : List HostMove} (h : HostEdit (s.popped rest) t) :
    NotHostWritableKept s t := by
  obtain ⟨_, _, _, rfl⟩ := h
  exact ⟨⟨rfl, rfl, rfl, rfl, rfl, rfl⟩, rfl, rfl, rfl, rfl⟩

/-- Bytes that fit, loaded, replace the input (R77). -/
theorem loadInput_inputReplaced (s : State) {bytes : List Byte} (h : bytes.length ≤ Config.ibufCap) :
    InputReplaced s (s.loadInput bytes) bytes :=
  ⟨s.loadInput_ilen_toNat h, fun _ hk => s.loadInput_inputByte hk, fun _ hk => s.loadInput_inputByte_of_le hk⟩

/-- An input that bytes have replaced holds exactly them. -/
theorem InputReplaced.inputIs {s t : State} {bytes : List Byte} (h : InputReplaced s t bytes) : InputIs t bytes := by
  obtain ⟨hilen, hbytes, -⟩ := h
  exact ⟨hilen, fun k hk => by rw [hbytes k hk, List.getElem?_eq_getElem hk]⟩

/-- A step that loads the input of an idle block replaces it and keeps the rest (R77, R228). -/
theorem step_loads {s : State} {rest : List HostMove} {bytes : List Byte} (hb : s.busy = false)
    (hfit : bytes.length ≤ Config.ibufCap)
    (h : step s = inputWrite (s.popped rest) ((s.popped rest).loadInput bytes)) :
    ∃ t, step s = .next t ∧ InputReplaced s t bytes ∧ NotHostWritableKept s t ∧ t.inbox = rest ∧
      t.hostData = s.hostData :=
  ⟨_, h.trans (inputWrite_of_idle (s := s.popped rest) _ hb), loadInput_inputReplaced (s.popped rest) hfit,
    notHostWritableKept_of_edit (HostEdit.loadInput (s.popped rest) bytes), rfl, rfl⟩

/-- Settles O6: the step is the write of the word, which decodes. -/
theorem stepRunsTheDecodedInstruction : Obligations.StepRunsTheDecodedInstruction := by
  intro s w rest i hq hb hd
  exact (step_of_move hq).trans (writeCmd_of_decode (s := s.popped rest) hb hd)

/-- Settles O7: a word that selects no row ends in the error entry. -/
theorem unmatchedWordEndsInIllegalCommand : Obligations.UnmatchedWordEndsInIllegalCommand := by
  intro s w rest hq hb hw
  exact ⟨_, (step_of_move hq).trans (writeCmd_of_unmatched (s := s.popped rest) hb hw), raise_endedInError _ _,
    raise_engineKept (s.popped rest).accept _, raise_hostSideKept (s.popped rest).accept _⟩

/-- Settles O8: a busy block drops the word. -/
theorem commandWrittenWhileBusyIsDropped : Obligations.CommandWrittenWhileBusyIsDropped := by
  intro s w rest hq hb
  exact (step_of_move hq).trans (writeCmd_of_busy (s := s.popped rest) w hb)

/-- Settles O9: each of the moves is a write of the input, which a busy block refuses. -/
theorem inputWrittenWhileBusyIsRefused : Obligations.InputWrittenWhileBusyIsRefused := by
  intro s rest hb
  have refused (t : State) : inputWrite (s.popped rest) t = .refused .inputWrittenWhileBusy := inputWrite_of_busy t hb
  refine ⟨fun k v n hk hq => ?byteOrRegister, fun addr bytes hq haddr hin => ?bus, fun bytes hq hfit => ?load,
    fun hq => ⟨fun r hr => ?copy, fun hr => ?nothing⟩⟩
  case byteOrRegister =>
    obtain hq | hq := hq
    · exact (step_of_move hq).trans ((indexed_of_lt _ hk).trans (refused _))
    · exact (step_of_move hq).trans (refused _)
  case bus =>
    exact (step_of_move hq).trans
      ((busWrite_of_ge bytes _ haddr).trans (busWriteBytes_of_busy (s := s.popped rest) hb hin))
  case load => exact (step_of_move hq).trans ((loadIbuf_of_le _ hfit).trans (refused _))
  case copy => exact (step_of_move hq).trans ((ibufFromResult_of_some (s := s.popped rest) hr).trans (refused _))
  case nothing => exact (step_of_move hq).trans (ibufFromResult_of_none (s := s.popped rest) hr)

/-- Settles O10: with no move to come a step keeps the state. -/
theorem idleBlockKeepsItsState : Obligations.IdleBlockKeepsItsState := fun _ => step_of_empty

/-- Settles O13, field by field of the state after the reset; its Salt Table is that of seed 0. -/
theorem resetMoveRestoresTheStatedValues : Obligations.ResetMoveRestoresTheStatedValues := by
  intro s rest hq
  exact ⟨_, step_of_move hq, rfl, saltGen_zero.symm, rfl, rfl, rfl, rfl, rfl, State.resetNow_status _, rfl, rfl⟩

/-- Settles O16: a move that keeps its duty answers, on the state with the move taken. -/
theorem dutifulHostIsNeverStopped : Obligations.DutifulHostIsNeverStopped := by
  intro s m rest hs hq hduty
  have hduty' : hostDuty m (s.popped rest) := by cases m <;> exact hduty
  obtain ⟨t, ht⟩ := hostMove_next (hs.popped rest) hduty'
  exact ⟨t, (step_of_move hq).trans ht⟩

/-- Settles O53: the number decides what is read, and `CMD` and `ILEN` alone are written. -/
theorem registersReadAndWriteAsListed : Obligations.RegistersReadAndWriteAsListed := by
  refine fun s n v rest => ⟨fun hq => ?read, fun hq h0 h2 => ?noEffect, fun hq hb => ?ilen, fun hq => ?cmd⟩
  case read =>
    rw [step_of_move hq, ← State.regValue_eq_ite]
    rfl
  case noEffect => exact (step_of_move hq).trans (writeReg_of_ne v _ h0 h2)
  case ilen =>
    rw [step_of_move hq, ← BitVec.setWidth_eq_extractLsb' (by decide)]
    exact inputWrite_of_idle (s := s.popped rest) _ hb
  case cmd => rw [step_of_move hq]; rfl

/-- Settles O54: a window read answers the byte of `SCRATCH` where the host may read it, and is refused elsewhere. -/
theorem resultWindowShowsTheResultOnly : Obligations.ResultWindowShowsTheResultOnly := by
  refine fun s k rest hk => ⟨fun hq => ⟨fun r v hdone herr hr hv => ?shown, fun hno => ?refused⟩, fun v hq => ?write⟩
  case shown =>
    obtain ⟨hlen, hread⟩ := State.resultBytes_some hr
    obtain ⟨hkr, -⟩ := List.getElem?_eq_some_iff.mp hv
    have holen : k < s.olen.toNat := hkr.trans_eq hlen
    exact (step_of_move hq).trans ((indexed_of_lt _ hk).trans
      (readResult_of_read (s := s.popped rest) ⟨hdone, herr, holen⟩ ((hread k holen).trans hv)))
  case refused =>
    have hnot : ¬ mayReadResult (s.popped rest) k := by
      rintro ⟨hdone, herr, holen⟩
      obtain h | h | h := hno
      · exact Bool.noConfusion (h.symm.trans hdone)
      · exact h herr
      · exact Nat.not_lt.mpr h holen
    exact (step_of_move hq).trans ((indexed_of_lt _ hk).trans (readResult_of_not_may hnot))
  case write => exact (step_of_move hq).trans (indexed_of_lt _ hk)

/-- Settles O55, a clause for each part of the address map. -/
theorem busReadsFollowTheAddressMap : Obligations.BusReadsFollowTheAddressMap := by
  intro s addr rest hq
  rw [step_of_move hq]
  refine ⟨?registers, ?input, ?window, ?reserved⟩
  case registers => rintro n j hn hj rfl; exact busRead_register (s.popped rest) hn hj
  case input => rintro k hk rfl; exact busRead_input (s.popped rest) hk
  case window =>
    rintro k hk rfl
    exact (busRead_window (s.popped rest) hk).trans (indexed_of_lt _ hk).symm
  case reserved => exact busRead_reserved (s.popped rest)

/-- Settles O56, a clause for each part of the address map; a longer write goes on after its first byte, which keeps the
moves to come. -/
theorem busWritesFollowTheAddressMap : Obligations.BusWritesFollowTheAddressMap := by
  intro s rest w v k addr
  have step_one {a : Nat} (hq : s.inbox = .busWrite a [v] :: rest) (ha : 8 ≤ a) :
      step s = busWriteByte a v (s.popped rest) := by
    rw [step_of_move hq, hostMove, busWrite_of_ge _ _ ha, busWriteBytes_singleton]
  have idle (hb : s.busy = false) (t : State) : inputWrite (s.popped rest) t = .next t := inputWrite_of_idle t hb
  refine ⟨fun hq => ?word, fun hq hk => ?window, fun hq hb => ?low, fun hq hb => ?high,
    fun hq haddr => ?noEffect, fun hq haddr => ?pieceOfCmd, fun bs t haddr ht => ?longer⟩
  case word => exact (step_of_move hq).trans (busWrite_bytesOfWord w _)
  case window =>
    exact (step_one hq (by omega)).trans ((busWriteByte_window v _ hk).trans (indexed_of_lt _ hk).symm)
  case low =>
    refine ⟨_, (step_one hq (by decide)).trans (idle hb _), ?_⟩
    rw [append_byte_toNat, BitVec.extractLsb'_toNat, Nat.shiftRight_eq_div_pow]
    exact congrArg (· * 256 + v.toNat) (Nat.mod_eq_of_lt (Nat.div_lt_of_lt_mul s.ilen.isLt))
  case high =>
    exact ⟨_, (step_one hq (by decide)).trans (idle hb _), append_byte_toNat v _⟩
  case noEffect => exact (step_one hq (by omega)).trans (busWriteByte_of_not_input v _ (by omega))
  case pieceOfCmd => exact (step_of_move hq).trans (busWrite_partial v _ haddr)
  case longer =>
    have hfirst : busWriteByte addr v (s.popped rest) = .next t := by
      rw [← busWriteBytes_singleton, ← busWrite_of_ge _ _ haddr]
      exact ht
    have hrest : t = { t with inbox := rest } := by
      obtain rfl : t.inbox = rest := (busWriteByte_edit hfirst).inbox
      rfl
    have hpop : ({ t with inbox := .busWrite (addr + 1) bs :: rest } : State).popped rest = t := hrest.symm
    rw [step_of_move (s := { s with inbox := .busWrite addr (v :: bs) :: rest }) rfl,
      step_of_move (s := { t with inbox := .busWrite (addr + 1) bs :: rest }) rfl, hpop, hostMove, hostMove,
      busWrite_of_ge _ _ haddr, busWrite_of_ge _ _ (Nat.le_succ_of_le haddr)]
    exact busWriteBytes_cons_of_next bs hfirst

/-- Settles O57: a host write of the input replaces it, a host read answers it, and every move that is neither a command
nor a reset is an edit of the host's side. -/
theorem inputByteWrittenIsTheByteRead : Obligations.InputByteWrittenIsTheByteRead := by
  refine fun s rest => ⟨fun k v hk => ⟨fun hq hb => ?write, fun hq => ?read⟩,
    fun bytes hq => ⟨fun hfit hb => ?load, fun hlong => ?overlong⟩,
    fun hq => ⟨fun r hr hb => ?copy, fun hr => ?nothing⟩, fun m t hq hm hreset ht => ?other⟩
  case write =>
    have hbyte := (s.popped rest).inputByte_setIbuf_write k
    exact ⟨_, (step_of_move hq).trans ((indexed_of_lt _ hk).trans (inputWrite_of_idle (s := s.popped rest) _ hb)),
      (hbyte k v).trans (if_pos rfl), fun j hj => (hbyte j v).trans (if_neg hj), rfl,
      notHostWritableKept_of_edit (HostEdit.setIbuf (s.popped rest) _), rfl, rfl⟩
  case read => exact (step_of_move hq).trans (indexed_of_lt _ hk)
  case load => exact step_loads hb hfit ((step_of_move hq).trans (loadIbuf_of_le _ hfit))
  case overlong => exact (step_of_move hq).trans (if_neg (Nat.not_le.mpr hlong))
  case copy =>
    exact step_loads hb (State.resultBytes_length_le hr)
      ((step_of_move hq).trans (ibufFromResult_of_some (s := s.popped rest) hr))
  case nothing => exact (step_of_move hq).trans (ibufFromResult_of_none (s := s.popped rest) hr)
  case other =>
    obtain ⟨hcmd, -⟩ | ⟨rfl, -⟩ | ⟨-, hedit⟩ := hostMove_cases ((step_of_move hq).symm.trans ht)
    · exact absurd hcmd (by simp [hm])
    · exact absurd rfl hreset
    · exact ⟨notHostWritableKept_of_edit hedit, hedit.inbox⟩

end Sys2Proof.Claims
end

section
/-! Sequences of moves as steps of the machine: the round trip (R180) and `CONSTRUCT` (R77, R216). -/

namespace Sys2Proof.Claims

open Sys2Proof.Machine Sys2Proof.Safety

/-- A step of an idle block whose next move writes the word of a well-formed instruction performs the instruction. -/
theorem step_of_encode {s : State} {i : Instr} {rest : List HostMove} (hb : s.busy = false)
    (hq : s.inbox = .command (encode i) :: rest) (h : i.WellFormed) : step s = exec i (s.popped rest).accept :=
  (step_of_move hq).trans (writeCmd_encode (s := s.popped rest) hb h)

/-- A step of an idle block with a move to come leaves it idle with the move taken, and after a command `DONE = 1`. -/
theorem step_idle {s t : State} {m : HostMove} {rest : List HostMove} (hb : s.busy = false) (hq : s.inbox = m :: rest)
    (h : step s = .next t) : t.busy = false ∧ t.inbox = rest ∧ (isCommand m = true → t.done = true) :=
  hostMove_idle (s := s.popped rest) hb ((step_of_move hq).symm.trans h)

/-- Settles O51: the client round trip between the state that accepts the encrypt and the one that accepts the decrypt,
whose input the copy has replaced with the frame. -/
theorem threeHostMovesRoundTripTheInput : Obligations.ThreeHostMovesRoundTripTheInput := by
  intro s seq k2 rest hb hpos hmax hvalid hq
  have hk2 : k2.toNat ≤ 1 := k2.toNat_le
  generalize hmoves : HostMove.ibufFromResult :: _ = moves at hq
  have haccepted : RegionAccepted (s.popped moves).accept 0 s.ilen.toNat 1 (s.ilen.toNat + 9 + k2.toNat) k2 :=
    ⟨hpos, (Nat.zero_add _).le, hpos, by omega, hvalid⟩
  obtain ⟨t1, frame, henc, hended, -, -, -, -, -, hprg1, -, hsalt1, hskey1, hktab1, hvalid1, -⟩ :=
    encClientDeliversTheClientFrame.2 _ _ _ seq k2 haccepted
  obtain ⟨hb1, -, -, -, hframe, -⟩ := hended
  have hstep1 : step s = .next t1 := (step_of_encode hb hq ⟨by decide, by omega⟩).trans henc
  obtain ⟨-, hq1, -⟩ := step_idle hb hq hstep1
  rw [← hmoves] at hq1
  obtain ⟨t2, hstep2, hinput, ⟨⟨-, hsalt2, hskey2, hktab2, hvalid2, hprg2⟩, -⟩, hq2, -⟩ :=
    step_loads hb1 (State.resultBytes_length_le hframe)
      ((step_of_move hq1).trans (ibufFromResult_of_some (s := t1.popped _) hframe))
  obtain ⟨hb2, -, -⟩ := step_idle hb1 hq1 hstep2
  have hkeys : SameKeys (s.popped moves).accept (t2.popped rest).accept k2 :=
    ⟨hsalt2.trans hsalt1, hskey2.trans hskey1,
      fun hk => ⟨hvalid hk, hvalid2.trans (hvalid1.trans (hvalid hk)), hktab2.trans hktab1⟩⟩
  obtain ⟨-, -, t, hdec, hpayload⟩ :=
    decClient_of_encClient (s2 := (t2.popped rest).accept) hkeys hframe hinput.inputIs haccepted henc
  have hstep3 : step t2 = .next t := (step_of_encode hb2 hq2 ⟨by decide, by omega⟩).trans hdec
  obtain ⟨-, hqt, -⟩ := step_idle hb2 hq2 hstep3
  refine ⟨t, ?run, ?payload, ?prg, hqt⟩
  case run => rw [run_succ_of_step 2 hstep1, run_succ_of_step 1 hstep2, run_succ_of_step 0 hstep3]; rfl
  case payload => exact (inputBytes_eq_cons s hpos).symm ▸ hpayload
  case prg => exact (exec_prg hdec).trans ((if_neg fun h => Bool.noConfusion h.1).trans (hprg2.trans hprg1))

/-- Settles O58: the reset leaves the generator at 1 and no valid table, and the three moves after it write the seed
with its table, the input, and the key. -/
theorem constructionSetsSeedKeyAndGenerator : Obligations.ConstructionSetsSeedKeyAndGenerator := by
  intro s seed key rest hseed hkey hq
  obtain ⟨s1, hstep1, hb1, hq1, hprg1, hvalid1⟩ : ∃ s1, step s = .next s1 ∧ s1.busy = false ∧
      s1.inbox = .command (encode (.setSeed seed)) :: .loadIbuf key :: .command (encode (.setSkey 0 9)) :: rest ∧
      s1.prg = 1 ∧ s1.ktabValid = false := ⟨_, step_of_move hq, rfl, rfl, rfl, rfl⟩
  obtain ⟨s2, hseeded, -, hseed2, hsalt2, -, -, hvalid2, hprg2, -⟩ :=
    (setSeedLoadsTheTableOrEndsInSeedRange _ seed).1 hseed
  have hstep2 : step s1 = .next s2 := (step_of_encode hb1 hq1 (show seed < 256 by omega)).trans hseeded
  obtain ⟨hb2, hq2, -⟩ := step_idle hb1 hq1 hstep2
  have hfit : key.length ≤ Config.ibufCap := by rw [hkey]; decide
  obtain ⟨s3, hstep3, ⟨hilen3, hbytes3, -⟩, ⟨⟨hseed3, hsalt3, -, -, hvalid3, hprg3⟩, -⟩, hq3, -⟩ :=
    step_loads hb2 hfit ((step_of_move hq2).trans (loadIbuf_of_le _ hfit))
  obtain ⟨hb3, -, -⟩ := step_idle hb2 hq2 hstep3
  obtain ⟨t, hkeyed, hended, hskey, hseed4, hsalt4, -, hvalid4, hprg4, -⟩ :=
    (setSkeyLoadsNineBytesOrReportsWhy (s3.popped rest).accept 0 9).1 rfl (hkey.symm.trans hilen3.symm).le
  have hstep4 : step s3 = .next t := (step_of_encode hb3 hq3 (by decide)).trans hkeyed
  obtain ⟨-, hqt, -⟩ := step_idle hb3 hq3 hstep4
  refine ⟨t, ?run, ?seed, hsalt4.trans (hsalt3.trans hsalt2), ?key, hprg4.trans (hprg3.trans (hprg2.trans hprg1)),
    hvalid4.trans (hvalid3.trans (hvalid2.trans hvalid1)), hended, hqt⟩
  case run =>
    rw [run_succ_of_step 3 hstep1, run_succ_of_step 2 hstep2, run_succ_of_step 1 hstep3, run_succ_of_step 0 hstep4]
    rfl
  case seed => exact (congrArg BitVec.toNat (hseed4.trans hseed3)).trans hseed2
  case key =>
    refine List.ext_getElem (t.skey.length_toList.trans hkey.symm) fun j hj hjk => ?_
    rw [Vector.getElem_toList, hskey j (hkey ▸ hjk), Nat.zero_add]
    exact hbytes3 j hjk

end Sys2Proof.Claims
end

section
/-! The outcome of a run (R229): what steps of an idle block add to it, one command after another. -/

namespace Sys2Proof.Safety

open Sys2Proof.Machine Sys2Proof.Claims

/-- What a step that performs the move `m` and leaves `t` adds to the observations `seen`: that of `t` if `m` is a
command (R229). -/
def observed (m : HostMove) (seen : List Observation) (t : State) : List Observation :=
  if isCommand m then seen ++ [observe t] else seen

/-- A command adds the observation of the state its step leaves. -/
theorem observed_of_isCommand {m : HostMove} (seen : List Observation) (t : State) (h : isCommand m = true) :
    observed m seen t = seen ++ [observe t] :=
  if_pos h

/-- The observations added are appended, as many as the move is commands. -/
theorem observed_eq_append (m : HostMove) (seen : List Observation) (t : State) :
    ∃ new, observed m seen t = seen ++ new ∧ new.length = [m].countP isCommand := by
  cases hm : isCommand m
  · exact ⟨[], by simp [observed, hm], by simp [hm]⟩
  · exact ⟨[observe t], observed_of_isCommand seen t hm, by simp [hm]⟩

/-- The outcome of the steps of an idle block that begin with a step to `t`. -/
theorem observeSteps_of_idle {m : HostMove} {rest : List HostMove} {seen : List Observation} {s t : State}
    (hb : s.busy = false) (hq : s.inbox = m :: rest) (h : step s = .next t) :
    observeSteps (rest.length + 1) seen s = observeSteps rest.length (observed m seen t) t := by
  rw [observeSteps_of_step h, acceptsCommand_of_move hq hb]
  rfl

/-- Where the steps of an idle block with a move to come have an outcome, the first performs the move and leaves the
block idle, and the others have the outcome with what the move added to the observations. -/
theorem observeSteps_idle {m : HostMove} {rest : List HostMove} {seen : List Observation} {s : State} {o : RunOutcome}
    (hb : s.busy = false) (hq : s.inbox = m :: rest) (h : observeSteps (rest.length + 1) seen s = .next o) :
    ∃ t, step s = .next t ∧ t.busy = false ∧ t.inbox = rest ∧ (isCommand m = true → t.done = true) ∧
      observeSteps rest.length (observed m seen t) t = .next o := by
  obtain ⟨t, ht, -⟩ := observeSteps_succ h
  obtain ⟨hbt, hqt, hdone⟩ := step_idle hb hq ht
  exact ⟨t, ht, hbt, hqt, hdone, (observeSteps_of_idle hb hq ht).symm.trans h⟩

/-- The steps of all moves to come end the run, and its outcome is the one at the state they end in. -/
theorem observeSteps_ends {moves : List HostMove} {seen : List Observation} {s : State} {o : RunOutcome}
    (hb : s.busy = false) (hq : s.inbox = moves) (h : observeSteps moves.length seen s = .next o) :
    ∃ t, Host.Core.run Sys2Proof.core moves.length s = .next t ∧ runEnded t ∧ o = outcomeAt o.commands t := by
  induction moves generalizing seen s with
  | nil => cases h; exact ⟨s, rfl, ⟨hq, hb⟩, rfl⟩
  | cons m rest ih =>
    obtain ⟨t, ht, hbt, hqt, -, hrest⟩ := observeSteps_idle hb hq h
    obtain ⟨u, hrun, hu⟩ := ih hbt hqt hrest
    exact ⟨u, (run_succ_of_step rest.length ht).trans hrun, hu⟩

/-- The steps of all moves to come append one observation for each command among them. -/
theorem observeSteps_commands {moves : List HostMove} {seen : List Observation} {s : State} {o : RunOutcome}
    (hb : s.busy = false) (hq : s.inbox = moves) (h : observeSteps moves.length seen s = .next o) :
    ∃ new, o.commands = seen ++ new ∧ new.length = moves.countP isCommand := by
  induction moves generalizing seen s with
  | nil => cases h; exact ⟨[], by simp, rfl⟩
  | cons m rest ih =>
    obtain ⟨t, ht, hbt, hqt, -, hrest⟩ := observeSteps_idle hb hq h
    obtain ⟨later, hlater, hcount⟩ := ih hbt hqt hrest
    obtain ⟨now, hnow, hcountNow⟩ := observed_eq_append m seen t
    refine ⟨now ++ later, by rw [hlater, hnow, List.append_assoc], ?_⟩
    rw [List.length_append, hcount, hcountNow, ← List.countP_append, List.singleton_append]

/-- The observation of a command follows those of the commands before it, and is that of the state which the step that
performs the command leaves. -/
theorem observeSteps_observes {before after : List HostMove} {m : HostMove} {seen : List Observation} {s : State}
    {o : RunOutcome} (hm : isCommand m = true) (hb : s.busy = false) (hq : s.inbox = before ++ m :: after)
    (h : observeSteps (before ++ m :: after).length seen s = .next o) :
    ∃ u, Host.Core.run Sys2Proof.core (before.length + 1) s = .next u ∧ u.busy = false ∧ u.done = true ∧
      o.commands[seen.length + before.countP isCommand]? = some (observe u) := by
  induction before generalizing seen s with
  | nil =>
    obtain ⟨u, hu, hbu, hqu, hdone, hrest⟩ := observeSteps_idle hb hq h
    obtain ⟨later, hlater, -⟩ := observeSteps_commands hbu hqu hrest
    refine ⟨u, run_succ_of_step 0 hu, hbu, hdone hm, ?_⟩
    rw [hlater, observed_of_isCommand seen u hm, List.append_assoc]
    simp
  | cons b before ih =>
    obtain ⟨t, ht, hbt, hqt, -, hrest⟩ := observeSteps_idle hb hq h
    obtain ⟨u, hrun, hbu, hdone, hobs⟩ := ih hbt hqt hrest
    refine ⟨u, (run_succ_of_step _ ht).trans hrun, hbu, hdone, ?_⟩
    obtain ⟨now, hnow, hcountNow⟩ := observed_eq_append b seen t
    rwa [hnow, List.length_append, hcountNow, Nat.add_assoc, ← List.countP_append, List.singleton_append] at hobs

/-- The moves that make a run of inputs and commands: any word written to `CMD`, and bytes that fit loaded. -/
abbrev InputOrCommand (m : HostMove) : Prop :=
  (∃ w, m = .command w) ∨ ∃ bytes : List Byte, bytes.length ≤ 65535 ∧ m = .loadIbuf bytes

/-- An idle block performs an input that fits and a word written to `CMD`, legal or not. -/
theorem InputOrCommand.step_next {m : HostMove} {rest : List HostMove} {s : State} (h : InputOrCommand m)
    (hb : s.busy = false) (hq : s.inbox = m :: rest) : ∃ t, step s = .next t := by
  rw [step_of_move hq]
  obtain ⟨w, rfl⟩ | ⟨bytes, hfit, rfl⟩ := h
  · exact writeCmd_next (s := s.popped rest) w hb
  · exact ⟨_, (loadIbuf_of_le _ hfit).trans (inputWrite_of_idle (s := s.popped rest) _ hb)⟩

/-- The steps of an idle block over inputs and commands have an outcome. -/
theorem observeSteps_next {moves : List HostMove} {s : State} (seen : List Observation)
    (hm : ∀ m ∈ moves, InputOrCommand m) (hb : s.busy = false) (hq : s.inbox = moves) :
    ∃ o, observeSteps moves.length seen s = .next o := by
  induction moves generalizing seen s with
  | nil => exact ⟨_, rfl⟩
  | cons m rest ih =>
    obtain ⟨t, ht⟩ := (hm m List.mem_cons_self).step_next hb hq
    obtain ⟨hbt, hqt, -⟩ := step_idle hb hq ht
    obtain ⟨o, ho⟩ := ih (observed m seen t) (fun m' hm' => hm m' (List.mem_cons_of_mem m hm')) hbt hqt
    exact ⟨o, (observeSteps_of_idle hb hq ht).trans ho⟩

/-- The outcome of a run has one observation for each command (R229). -/
theorem runOutcome_commands_length {moves : List HostMove} {o : RunOutcome} (h : runOutcome moves = .next o) :
    o.commands.length = moves.countP isCommand := by
  obtain ⟨new, hnew, hcount⟩ := observeSteps_commands (runStart_busy moves) (runStart_inbox moves) h
  rw [hnew, List.nil_append, hcount]

end Sys2Proof.Safety

namespace Sys2Proof.Claims

open Sys2Proof.Machine Sys2Proof.Safety

/-- Settles O59: the end of the run, the number of its observations, and the observation of each command. -/
theorem runOutcomeObservesEveryCommand : Obligations.RunOutcomeObservesEveryCommand := by
  refine fun moves o h => ⟨?ended, runOutcome_commands_length h, fun before after m hmoves hm => ?observed⟩
  case ended =>
    obtain ⟨t, hrun, hended, ho⟩ := observeSteps_ends (runStart_busy moves) (runStart_inbox moves) h
    rw [ho]
    exact ⟨t, hrun, hended, rfl, rfl, rfl, rfl⟩
  case observed =>
    subst hmoves
    obtain ⟨u, hrun, hbusy, hdone, hobs⟩ := observeSteps_observes hm (runStart_busy _) (runStart_inbox _) h
    rw [List.length_nil, Nat.zero_add] at hobs
    exact ⟨u, hrun, hbusy, hdone, observe u, hobs, rfl, rfl, fun herr => if_pos herr, fun herr => if_neg herr⟩

/-- Settles O60: an idle block performs each of the moves and stays idle. -/
theorem everyRunOfInputsAndCommandsHasAnOutcome : Obligations.EveryRunOfInputsAndCommandsHasAnOutcome := by
  intro moves hm
  obtain ⟨o, ho⟩ := observeSteps_next [] hm (runStart_busy moves) (runStart_inbox moves)
  exact ⟨o, ho, runOutcome_commands_length ho⟩

end Sys2Proof.Claims
end
